-- ==== Sys2Proof/Word.lean ====
section
/-! DEFINITION. The machine's words: bytes, 16-bit words and register numbers (spec/10_state.md R10, R13, R15). -/

namespace Sys2Proof

/-- The addressable unit and the width of a general register (R10, R40). -/
abbrev Byte := BitVec 8

/-- The width of `PC`, `I`, a stack entry and an instruction word (R13, R15, R17, R60). -/
abbrev Word := BitVec 16

/-- The number of a general register, V0 to VF: every value names a register (R10). -/
abbrev Reg := Fin 16

end Sys2Proof
end

