-- ==== Sys2Proof/Syntax.lean ====
section
/-! DEFINITION. The instruction set as syntax: one constructor per row of spec/opcode_table.json (spec/30_encoding.md R65),
its operands the fields of R62. Constructor names follow the conventional mnemonics of R69 (log entry 19). -/

namespace Sys2Proof

/-- The 34 instructions. `x`, `y` are register numbers, `kk` an immediate byte, `nnn` a 12-bit address,
`n` the sprite height, a count (R62). -/
inductive Instr where
  /-- `00E0` CLS -/
  | cls
  /-- `00EE` RET -/
  | ret
  /-- `1nnn` JP addr -/
  | jpAddr (nnn : BitVec 12)
  /-- `2nnn` CALL addr -/
  | callAddr (nnn : BitVec 12)
  /-- `3xkk` SE Vx, byte -/
  | seVxByte (x : Reg) (kk : Byte)
  /-- `4xkk` SNE Vx, byte -/
  | sneVxByte (x : Reg) (kk : Byte)
  /-- `5xy0` SE Vx, Vy -/
  | seVxVy (x y : Reg)
  /-- `6xkk` LD Vx, byte -/
  | ldVxByte (x : Reg) (kk : Byte)
  /-- `7xkk` ADD Vx, byte -/
  | addVxByte (x : Reg) (kk : Byte)
  /-- `8xy0` LD Vx, Vy -/
  | ldVxVy (x y : Reg)
  /-- `8xy1` OR Vx, Vy -/
  | orVxVy (x y : Reg)
  /-- `8xy2` AND Vx, Vy -/
  | andVxVy (x y : Reg)
  /-- `8xy3` XOR Vx, Vy -/
  | xorVxVy (x y : Reg)
  /-- `8xy4` ADD Vx, Vy -/
  | addVxVy (x y : Reg)
  /-- `8xy5` SUB Vx, Vy -/
  | subVxVy (x y : Reg)
  /-- `8xy6` SHR Vx; the `y` field is kept and ignored (R68) -/
  | shrVx (x y : Reg)
  /-- `8xy7` SUBN Vx, Vy -/
  | subnVxVy (x y : Reg)
  /-- `8xyE` SHL Vx; the `y` field is kept and ignored (R68) -/
  | shlVx (x y : Reg)
  /-- `9xy0` SNE Vx, Vy -/
  | sneVxVy (x y : Reg)
  /-- `Annn` LD I, addr -/
  | ldIAddr (nnn : BitVec 12)
  /-- `Bnnn` JP V0, addr -/
  | jpV0Addr (nnn : BitVec 12)
  /-- `Cxkk` RND Vx, byte -/
  | rndVxByte (x : Reg) (kk : Byte)
  /-- `Dxyn` DRW Vx, Vy, nibble -/
  | drwVxVyNibble (x y : Reg) (n : Nat)
  /-- `Ex9E` SKP Vx -/
  | skpVx (x : Reg)
  /-- `ExA1` SKNP Vx -/
  | sknpVx (x : Reg)
  /-- `Fx07` LD Vx, DT -/
  | ldVxDt (x : Reg)
  /-- `Fx0A` LD Vx, K -/
  | ldVxK (x : Reg)
  /-- `Fx15` LD DT, Vx -/
  | ldDtVx (x : Reg)
  /-- `Fx18` LD ST, Vx -/
  | ldStVx (x : Reg)
  /-- `Fx1E` ADD I, Vx -/
  | addIVx (x : Reg)
  /-- `Fx29` LD F, Vx -/
  | ldFVx (x : Reg)
  /-- `Fx33` LD B, Vx -/
  | ldBVx (x : Reg)
  /-- `Fx55` LD [I], Vx -/
  | ldMemVx (x : Reg)
  /-- `Fx65` LD Vx, [I] -/
  | ldVxMem (x : Reg)
  deriving DecidableEq, Repr

end Sys2Proof
end

