-- ==== Sys2Proof/WellFormed.lean ====
section
/-! DEFINITION. Well-formed instructions: the checks that the operand types do not already make. Register numbers, `kk` and
`nnn` are bounded by their types (spec/30_encoding.md R62), so the one check left is the sprite height. -/

namespace Sys2Proof

/-- An instruction some word encodes: the sprite height of `Dxyn` is a 4-bit count, 0 to 15 (R62). -/
def Instr.wellFormed : Instr → Bool
  | .drwVxVyNibble _ _ n => decide (n < 16)
  | .cls | .ret | .jpAddr _ | .callAddr _ | .seVxByte _ _ | .sneVxByte _ _ | .seVxVy _ _ | .ldVxByte _ _ | .addVxByte _ _
  | .ldVxVy _ _ | .orVxVy _ _ | .andVxVy _ _ | .xorVxVy _ _ | .addVxVy _ _ | .subVxVy _ _ | .shrVx _ _ | .subnVxVy _ _
  | .shlVx _ _ | .sneVxVy _ _ | .ldIAddr _ | .jpV0Addr _ | .rndVxByte _ _ | .skpVx _ | .sknpVx _ | .ldVxDt _ | .ldVxK _
  | .ldDtVx _ | .ldStVx _ | .addIVx _ | .ldFVx _ | .ldBVx _ | .ldMemVx _ | .ldVxMem _ => true

end Sys2Proof
end

