-- ==== Sys2Proof/Decode.lean ====
section
/-! DEFINITION. The decoder (spec/30_encoding.md R64), total on every word and on any bytes and rejecting by the named rows of
R67; the encoder, from the `match` column and field places of R65 and R62; and the opcode map itself as a table. -/

namespace Sys2Proof

/-- Why no instruction is read: one constructor per row of R67's table of illegal words, and too few bytes for a word. -/
inductive Reject where
  /-- `0x0000` to `0x0FFF` other than `0x00E0`, `0x00EE` -/
  | zeroGroup
  /-- `0x5xyN`, N not 0 -/
  | fiveGroup
  /-- `0x8xyN`, N in 8 to D or F -/
  | aluGroup
  /-- `0x9xyN`, N not 0 -/
  | nineGroup
  /-- `0xExkk`, kk not 9E or A1 -/
  | keyGroup
  /-- `0xFxkk`, kk not one of the nine listed -/
  | miscGroup
  /-- fewer than two bytes to decode -/
  | truncated
  deriving DecidableEq, Repr

/-! ### Fields of an instruction word (R62) -/

/-- `op[15:12]`, the nibble the decoder dispatches on. -/
def majorField (op : Word) : Nat := (op.extractLsb' 12 4).toNat

/-- `x = op[11:8]`. -/
def xField (op : Word) : Reg := (op.extractLsb' 8 4).toFin

/-- `y = op[7:4]`. -/
def yField (op : Word) : Reg := (op.extractLsb' 4 4).toFin

/-- `n = op[3:0]`; also the function nibble `fn4`. -/
def nField (op : Word) : Nat := (op.extractLsb' 0 4).toNat

/-- `kk = op[7:0]`; also the function byte `fn8`. -/
def kkField (op : Word) : Byte := op.extractLsb' 0 8

/-- `nnn = op[11:0]`. -/
def nnnField (op : Word) : BitVec 12 := op.extractLsb' 0 12

/-! ### Decoding (R64) -/

/-- Major opcode 0: all 16 bits are matched. -/
def decodeZero (op : Word) : Except Reject Instr :=
  if op = 0x00E0 then .ok .cls else if op = 0x00EE then .ok .ret else .error .zeroGroup

/-- Major opcode 8: the function nibble selects the operation. -/
def decodeAlu (op : Word) : Except Reject Instr :=
  match nField op with
  | 0x0 => .ok (.ldVxVy (xField op) (yField op))
  | 0x1 => .ok (.orVxVy (xField op) (yField op))
  | 0x2 => .ok (.andVxVy (xField op) (yField op))
  | 0x3 => .ok (.xorVxVy (xField op) (yField op))
  | 0x4 => .ok (.addVxVy (xField op) (yField op))
  | 0x5 => .ok (.subVxVy (xField op) (yField op))
  | 0x6 => .ok (.shrVx (xField op) (yField op))
  | 0x7 => .ok (.subnVxVy (xField op) (yField op))
  | 0xE => .ok (.shlVx (xField op) (yField op))
  | _ => .error .aluGroup

/-- Major opcode 0xE: the function byte selects the key skip. -/
def decodeKey (op : Word) : Except Reject Instr :=
  match (kkField op).toNat with
  | 0x9E => .ok (.skpVx (xField op))
  | 0xA1 => .ok (.sknpVx (xField op))
  | _ => .error .keyGroup

/-- Major opcode 0xF: the function byte selects the operation. -/
def decodeMisc (op : Word) : Except Reject Instr :=
  match (kkField op).toNat with
  | 0x07 => .ok (.ldVxDt (xField op))
  | 0x0A => .ok (.ldVxK (xField op))
  | 0x15 => .ok (.ldDtVx (xField op))
  | 0x18 => .ok (.ldStVx (xField op))
  | 0x1E => .ok (.addIVx (xField op))
  | 0x29 => .ok (.ldFVx (xField op))
  | 0x33 => .ok (.ldBVx (xField op))
  | 0x55 => .ok (.ldMemVx (xField op))
  | 0x65 => .ok (.ldVxMem (xField op))
  | _ => .error .miscGroup

/-- The decoder: a total function of the word alone (R64). -/
def decode (op : Word) : Except Reject Instr :=
  match majorField op with
  | 0x0 => decodeZero op
  | 0x1 => .ok (.jpAddr (nnnField op))
  | 0x2 => .ok (.callAddr (nnnField op))
  | 0x3 => .ok (.seVxByte (xField op) (kkField op))
  | 0x4 => .ok (.sneVxByte (xField op) (kkField op))
  | 0x5 => if nField op = 0 then .ok (.seVxVy (xField op) (yField op)) else .error .fiveGroup
  | 0x6 => .ok (.ldVxByte (xField op) (kkField op))
  | 0x7 => .ok (.addVxByte (xField op) (kkField op))
  | 0x8 => decodeAlu op
  | 0x9 => if nField op = 0 then .ok (.sneVxVy (xField op) (yField op)) else .error .nineGroup
  | 0xA => .ok (.ldIAddr (nnnField op))
  | 0xB => .ok (.jpV0Addr (nnnField op))
  | 0xC => .ok (.rndVxByte (xField op) (kkField op))
  | 0xD => .ok (.drwVxVyNibble (xField op) (yField op) (nField op))
  | 0xE => decodeKey op
  | _ => decodeMisc op

/-- The word of two bytes, the first the more significant (spec/20_memory.md R42). -/
def wordOfBytes (hi lo : Byte) : Word := BitVec.ofNat 16 (hi.toNat * 256 + lo.toNat)

/-- The two bytes of a word in the order memory holds them, the more significant first (R42). -/
def bytesOfWord (w : Word) : List Byte := [w.extractLsb' 8 8, w.extractLsb' 0 8]

/-- Decoding the first instruction of a byte sequence; every instruction is two bytes (R60). -/
def decodeBytes : List Byte → Except Reject (Instr × List Byte)
  | hi :: lo :: rest => (decode (wordOfBytes hi lo)).map (·, rest)
  | [] | [_] => .error .truncated

/-- The decoder on a word numbered as spec/opcode_table.json numbers it: bit 0 is the least significant bit of the one
16-bit word, and the bits above `nbits` are 0. The word is laid out as memory holds it and read back. -/
def decodeTableWord (nbits w : Nat) : Option Instr :=
  match decodeBytes (bytesOfWord (BitVec.ofNat 16 (w % 2 ^ nbits))) with
  | .ok (i, _) => some i
  | .error _ => none

/-! ### Encoding -/

/-- Format A: `nnn` below the major opcode (R61). -/
def wordA (base : Nat) (nnn : BitVec 12) : Word := BitVec.ofNat 16 (base + nnn.toNat)

/-- Format XK (R61). -/
def wordXK (base : Nat) (x : Reg) (kk : Byte) : Word := BitVec.ofNat 16 (base + 0x100 * x.val + kk.toNat)

/-- Formats XY and XYN (R61); `fn` is the function nibble or the sprite height. -/
def wordXYN (base : Nat) (x y : Reg) (fn : Nat) : Word := BitVec.ofNat 16 (base + 0x100 * x.val + 0x10 * y.val + fn % 16)

/-- Format XF (R61); `fn` is the function byte. -/
def wordXF (base : Nat) (x : Reg) (fn : Nat) : Word := BitVec.ofNat 16 (base + 0x100 * x.val + fn)

/-- The word of an instruction (R61, R62, R65). -/
def encode : Instr → Word
  | .cls => 0x00E0
  | .ret => 0x00EE
  | .jpAddr nnn => wordA 0x1000 nnn
  | .callAddr nnn => wordA 0x2000 nnn
  | .seVxByte x kk => wordXK 0x3000 x kk
  | .sneVxByte x kk => wordXK 0x4000 x kk
  | .seVxVy x y => wordXYN 0x5000 x y 0x0
  | .ldVxByte x kk => wordXK 0x6000 x kk
  | .addVxByte x kk => wordXK 0x7000 x kk
  | .ldVxVy x y => wordXYN 0x8000 x y 0x0
  | .orVxVy x y => wordXYN 0x8000 x y 0x1
  | .andVxVy x y => wordXYN 0x8000 x y 0x2
  | .xorVxVy x y => wordXYN 0x8000 x y 0x3
  | .addVxVy x y => wordXYN 0x8000 x y 0x4
  | .subVxVy x y => wordXYN 0x8000 x y 0x5
  | .shrVx x y => wordXYN 0x8000 x y 0x6
  | .subnVxVy x y => wordXYN 0x8000 x y 0x7
  | .shlVx x y => wordXYN 0x8000 x y 0xE
  | .sneVxVy x y => wordXYN 0x9000 x y 0x0
  | .ldIAddr nnn => wordA 0xA000 nnn
  | .jpV0Addr nnn => wordA 0xB000 nnn
  | .rndVxByte x kk => wordXK 0xC000 x kk
  | .drwVxVyNibble x y n => wordXYN 0xD000 x y n
  | .skpVx x => wordXF 0xE000 x 0x9E
  | .sknpVx x => wordXF 0xE000 x 0xA1
  | .ldVxDt x => wordXF 0xF000 x 0x07
  | .ldVxK x => wordXF 0xF000 x 0x0A
  | .ldDtVx x => wordXF 0xF000 x 0x15
  | .ldStVx x => wordXF 0xF000 x 0x18
  | .addIVx x => wordXF 0xF000 x 0x1E
  | .ldFVx x => wordXF 0xF000 x 0x29
  | .ldBVx x => wordXF 0xF000 x 0x33
  | .ldMemVx x => wordXF 0xF000 x 0x55
  | .ldVxMem x => wordXF 0xF000 x 0x65

/-! ### The opcode map (R65): `op &&& mask = match` selects the row -/

/-- The (match, mask) pair of an instruction's row in R65. -/
def opcodeRow : Instr → Word × Word
  | .cls => (0x00E0, 0xFFFF)
  | .ret => (0x00EE, 0xFFFF)
  | .jpAddr _ => (0x1000, 0xF000)
  | .callAddr _ => (0x2000, 0xF000)
  | .seVxByte _ _ => (0x3000, 0xF000)
  | .sneVxByte _ _ => (0x4000, 0xF000)
  | .seVxVy _ _ => (0x5000, 0xF00F)
  | .ldVxByte _ _ => (0x6000, 0xF000)
  | .addVxByte _ _ => (0x7000, 0xF000)
  | .ldVxVy _ _ => (0x8000, 0xF00F)
  | .orVxVy _ _ => (0x8001, 0xF00F)
  | .andVxVy _ _ => (0x8002, 0xF00F)
  | .xorVxVy _ _ => (0x8003, 0xF00F)
  | .addVxVy _ _ => (0x8004, 0xF00F)
  | .subVxVy _ _ => (0x8005, 0xF00F)
  | .shrVx _ _ => (0x8006, 0xF00F)
  | .subnVxVy _ _ => (0x8007, 0xF00F)
  | .shlVx _ _ => (0x800E, 0xF00F)
  | .sneVxVy _ _ => (0x9000, 0xF00F)
  | .ldIAddr _ => (0xA000, 0xF000)
  | .jpV0Addr _ => (0xB000, 0xF000)
  | .rndVxByte _ _ => (0xC000, 0xF000)
  | .drwVxVyNibble _ _ _ => (0xD000, 0xF000)
  | .skpVx _ => (0xE09E, 0xF0FF)
  | .sknpVx _ => (0xE0A1, 0xF0FF)
  | .ldVxDt _ => (0xF007, 0xF0FF)
  | .ldVxK _ => (0xF00A, 0xF0FF)
  | .ldDtVx _ => (0xF015, 0xF0FF)
  | .ldStVx _ => (0xF018, 0xF0FF)
  | .addIVx _ => (0xF01E, 0xF0FF)
  | .ldFVx _ => (0xF029, 0xF0FF)
  | .ldBVx _ => (0xF033, 0xF0FF)
  | .ldMemVx _ => (0xF055, 0xF0FF)
  | .ldVxMem _ => (0xF065, 0xF0FF)

end Sys2Proof
end

