-- ==== Sys2Proof/Config.lean ====
section
/-! DEFINITION. The fixed parameters of the hardware (spec/00_scope.md R5) and its one free value (R6 `RANDOM`).
`FONT_TABLE` is an argument of `init` (Machine/Events.lean) with the default of Machine/Ops.lean; `SPRITE_MSB_FIRST`, which the spec
fixes, stands in Machine/Operands.lean. -/

namespace Sys2Proof.Config

/-- `MEM_SIZE`: addresses 0x000 to 0xFFF (R5). -/
def memSize : Nat := 4096

/-- `FONT_BASE` (R5). -/
def fontBase : Nat := 0x000

/-- `GLYPH_BYTES`: bytes of one font glyph (R5). -/
def glyphBytes : Nat := 5

/-- The values `FONT_TABLE` may take: `FONT_BYTES` = 80 bytes, 16 glyphs of 5, top row first (R5, spec/10_state.md R31). -/
abbrev FontTable := Vector Byte 80

/-- `PROG_BASE`: where `init` copies the ROM, and the value of `PC` after `init` (R5, R48). -/
def progBase : Nat := 0x200

/-- `STACK_DEPTH` (R5). -/
def stackDepth : Nat := 16

/-- `DISP_W` and `DISP_H` (R5). -/
def dispW : Nat := 64
def dispH : Nat := 32

/-- `RANDOM`: the byte that answers the `k`-th `RandomByte()` request. FREE VALUE: the source puts no law on the draws
(spec/41_alu.md R111, D16), so it has no body and no proof can see a value of it (log entry 5). -/
opaque randomByte : Nat → Byte

end Sys2Proof.Config
end

