-- ==== Sys2Proof/Machine/State.lean ====
section
/-! DEFINITION. The state of one machine as plain data: every piece of state of spec/10_state.md, the fault latch, and the
model's own counter of random draws; the reasons a step can name; the state right after reset (R30). -/

namespace Sys2Proof.Machine

/-- The four faults of spec/60_exceptions.md R150. A fault is raised inside a step and TAKEN: it is latched in the state
(`State.takeFault`), because the spec says what it leaves (R155, R156), so no step and no meaning answers
`Outcome.fault`; these names are the `kind` of the fault record (R172). -/
inductive Fault where
  /-- Raised by a fetch at 4095 or above, by `Dxyn`, `Fx33`, `Fx55`, `Fx65` with an address at 4096 or above, and by `Ex9E`,
  `ExA1` with a key index above 15 (R151). Safe: the machine halts where another reading would go on. -/
  | outOfBounds
  /-- Raised by `2nnn` when the call stack holds 16 entries (R152). Safe: the spec says so. -/
  | stackOverflow
  /-- Raised by `00EE` when the call stack is empty (R153). Safe: the spec says so. -/
  | stackUnderflow
  /-- Raised at decode for every word outside the opcode map (R154). Safe: the spec says so. -/
  | illegalInstruction
  deriving DecidableEq, Repr

/-- What the model refuses. Nothing: every instruction of the opcode table has its meaning. -/
inductive Refusal where
  /-- An instruction without a meaning; raised by no arm of `exec`. Safe. -/
  | notModelled (mnemonic : String)
  deriving DecidableEq, Repr

/-- The fault record `(kind, opcode, pc)` (spec/10_state.md R27, spec/60_exceptions.md R172). -/
structure FaultRecord where
  kind : Fault
  /-- the fetched word, absent when the fetch itself faulted -/
  opcode : Option Word
  /-- `pc0` of the faulting step -/
  pc : Word
  deriving DecidableEq, Repr

/-- The fault latch of R27: `halted` and `fault_rec` in one, since `halted = 1` exactly when a record is present
(log entry 24). -/
inductive FaultLatch where
  | running
  | halted (record : FaultRecord)
  deriving DecidableEq, Repr

/-- `mem` as (address, byte) pairs; its canonical form is `Memory.wf` (Machine/Ops.lean). -/
abbrev Memory := List Host.Cell

/-- The pixel buffer, 32 rows of 64 pixels: `fb[y][x]`, true = on (R24). -/
abbrev Screen := Vector (Vector Bool 64) 32

/-- The complete state of one machine (spec/10_state.md, the tuple at its head). -/
structure State where
  /-- `V[0]`..`V[15]`, VF = `V[15]` (R10, R11) -/
  v : Vector Byte 16
  /-- `I` (R15, R16) -/
  i : Word
  /-- `PC` (R13, R14) -/
  pc : Word
  /-- `SP`, the number of entries held (R17) -/
  sp : Fin 17
  /-- `stack[0]`..`stack[15]`, apart from memory (R17, R18) -/
  stack : Vector Word 16
  /-- `DT` (R21) -/
  dt : Byte
  /-- `ST` (R22) -/
  st : Byte
  /-- `mem` (R23) -/
  mem : Memory
  /-- `fb` (R24) -/
  fb : Screen
  /-- `dirty` (R25) -/
  dirty : Bool
  /-- `key[0]`..`key[15]`, true = pressed (R26) -/
  key : Vector Bool 16
  /-- `halted` and `fault_rec` (R27) -/
  latch : FaultLatch
  /-- the MODEL's own field: how many random bytes have been drawn (R111, log entry 5) -/
  draws : Nat
  deriving DecidableEq, Repr

/-- `fault_rec` (R27). -/
def State.faultRec (s : State) : Option FaultRecord :=
  match s.latch with
  | .running => none
  | .halted r => some r

/-- `halted` (R27). -/
def State.halted (s : State) : Bool := s.faultRec.isSome

/-- Every pixel off. -/
def Screen.blank : Screen := Vector.replicate 32 (Vector.replicate 64 false)

/-- The state right after reset with nothing loaded, that is after `init` of an empty ROM with the default font (R30, R180):
`PC` = 0x200, memory at its reset contents (nothing listed), and the values the spec chooses for the rest (D1; log entries 1, 2, 5). -/
def State.reset : State where
  v := Vector.replicate 16 0
  i := 0
  pc := BitVec.ofNat 16 Config.progBase
  sp := 0
  stack := Vector.replicate 16 0
  dt := 0
  st := 0
  mem := []
  fb := Screen.blank
  dirty := false
  key := Vector.replicate 16 false
  latch := .running
  draws := 0

end Sys2Proof.Machine
end

