-- ==== Sys2Proof/Machine/Ops.lean ====
section
/-! DEFINITION. The named operations over memory, registers, the call stack, the program counter and the pixel buffer, and
taking a fault: the primitives of spec/10_state.md and spec/20_memory.md, stated once for all instructions. -/

namespace Sys2Proof.Machine

/-- The outcome of a meaning or of a step. -/
abbrev Result := Host.Outcome State Fault Refusal

/-! ### Memory (spec/20_memory.md) -/

/-- The default of the parameter `FONT_TABLE`, 16 glyphs of 5 bytes (spec/10_state.md R31, D10). PRESUMED: the spec takes the bytes
from general knowledge (log entry 3). -/
def fontTable : List Byte :=
  [0xF0, 0x90, 0x90, 0x90, 0xF0,  0x20, 0x60, 0x20, 0x20, 0x70,
   0xF0, 0x10, 0xF0, 0x80, 0xF0,  0xF0, 0x10, 0xF0, 0x10, 0xF0] ++
  [0x90, 0x90, 0xF0, 0x10, 0x10,  0xF0, 0x80, 0xF0, 0x10, 0xF0,
   0xF0, 0x80, 0xF0, 0x90, 0xF0,  0xF0, 0x10, 0x20, 0x40, 0x40] ++
  [0xF0, 0x90, 0xF0, 0x90, 0xF0,  0xF0, 0x90, 0xF0, 0x10, 0xF0,
   0xF0, 0x90, 0xF0, 0x90, 0x90,  0xE0, 0x90, 0xE0, 0x90, 0xE0] ++
  [0xF0, 0x80, 0x80, 0x80, 0xF0,  0xE0, 0x90, 0x90, 0x90, 0xE0,
   0xF0, 0x80, 0xF0, 0x80, 0xF0,  0xF0, 0x80, 0xF0, 0x80, 0x80]

/-- The default table as a value of the parameter. -/
def defaultFont : Config.FontTable := ⟨fontTable.toArray, rfl⟩

/-- What an address that memory does not list reads as: its content after `init` with the default font and nothing loaded, the
table at 0x000..0x04F and 0x00 above it (R48). With another font, `init` lists the bytes that differ (log entry 3). -/
def resetByte (a : Nat) : Byte := fontTable.getD a 0

/-- `mem[a]`, with no range check (R41 makes the check: `memReadByte`). -/
def Memory.read : Memory → Nat → Byte
  | [], a => resetByte a
  | (k, b) :: m, a => if a = k then b else Memory.read m a

/-- One more listed cell in front, unless the byte is what the address reads as unlisted. -/
def Memory.consCell (a : Nat) (b : Byte) (m : Memory) : Memory := if b = resetByte a then m else (a, b) :: m

/-- `mem[a] <- b`, keeping the canonical form, with no range check (R43 makes the check: `memWriteByte`). -/
def Memory.write : Memory → Nat → Byte → Memory
  | [], a, b => Memory.consCell a b []
  | (k, c) :: m, a, b =>
    if a < k then Memory.consCell a b ((k, c) :: m)
    else if a = k then Memory.consCell a b m
    else (k, c) :: Memory.write m a b

/-- Bytes to consecutive addresses from `a`. -/
def Memory.writeBytes (m : Memory) (a : Nat) : List Byte → Memory
  | [] => m
  | b :: bs => Memory.writeBytes (m.write a b) (a + 1) bs

/-- `n` bytes at consecutive addresses from `a`. -/
def Memory.readBytes (m : Memory) (a n : Nat) : List Byte := (List.range n).map fun k => m.read (a + k)

/-- The canonical form above a bound: addresses strictly rising from `lo`, inside the address space, and no entry equal to
what its address reads as unlisted. -/
def Memory.wfFrom : Nat → Memory → Bool
  | _, [] => true
  | lo, (k, b) :: m => decide (lo ≤ k) && decide (k < Config.memSize) && (b != resetByte k) && Memory.wfFrom (k + 1) m

/-- The canonical form of memory: equal memories are equal lists. -/
def Memory.wf (m : Memory) : Bool := Memory.wfFrom 0 m

/-- The range check of a whole instruction that touches the `n` bytes from `a`: no access at all, or the highest address is
below 4096, on natural numbers (R44, spec/42_index_memory.md R126). -/
def inRange (a n : Nat) : Bool := n == 0 || decide (a + n ≤ Config.memSize)

/-- `MemRead(addr, 1)`; `none` raises `OutOfBounds` (R41). -/
def memReadByte (s : State) (a : Nat) : Option Byte := if a < Config.memSize then some (s.mem.read a) else none

/-- `MemRead(addr, 2)`, big-endian; `none` raises `OutOfBounds` (R42). -/
def memReadWord (s : State) (a : Nat) : Option Word :=
  if a + 1 < Config.memSize then some (wordOfBytes (s.mem.read a) (s.mem.read (a + 1))) else none

/-- `MemWrite(addr, 1, v)`; `none` raises `OutOfBounds` (R43). -/
def memWriteByte (s : State) (a : Nat) (b : Byte) : Option State :=
  if a < Config.memSize then some { s with mem := s.mem.write a b } else none

/-- The byte reads of one instruction, checked as a whole first (R44). -/
def memReadBytes (s : State) (a n : Nat) : Option (List Byte) := if inRange a n then some (s.mem.readBytes a n) else none

/-- The byte writes of one instruction, checked as a whole before the first (R44). -/
def memWriteBytes (s : State) (a : Nat) (bs : List Byte) : Option State :=
  if inRange a bs.length then some { s with mem := s.mem.writeBytes a bs } else none

/-! ### Taking a fault (spec/60_exceptions.md section 2) -/

/-- The instruction word at `PC`, absent when it cannot be fetched (spec/40_flow.md R80, spec/20_memory.md R42). -/
def State.fetchWord (s : State) : Option Word := memReadWord s s.pc.toNat

/-- Taking a fault: the latch records the kind, the fetched word (absent when the fetch itself faulted) and `pc0`, the machine
is halted, and nothing else changes (R155, R156, R172). It is given the state the step began in, so `PC` is `pc0`
(log entries 6, 7). There is no handler and no return from it (R157). -/
def State.takeFault (k : Fault) (s : State) : State := { s with latch := .halted ⟨k, s.fetchWord, s.pc⟩ }

/-- `raise`: the step ends with the fault taken. -/
def raise (k : Fault) (s : State) : Result := .next (s.takeFault k)

/-- The ordinals the spec gives the fault names; nothing reads them (R150, D4). -/
def Fault.ordinal : Fault → Nat
  | .outOfBounds => 0
  | .stackOverflow => 1
  | .stackUnderflow => 2
  | .illegalInstruction => 3

/-! ### General registers (spec/10_state.md R10) -/

/-- `V[r]`. -/
def State.reg (s : State) (r : Reg) : Byte := s.v[r.val]

/-- `V[r] <- b`. -/
def State.setReg (s : State) (r : Reg) (b : Byte) : State := { s with v := s.v.set r.val b }

/-- `V[0]`..`V[n-1]` in order. -/
def State.regBytes (s : State) (n : Nat) : List Byte := s.v.toList.take n

/-- Bytes to consecutive registers from `V[k]`; there is no register above VF. -/
def State.setRegs (s : State) (k : Nat) : List Byte → State
  | [] => s
  | b :: bs => (if h : k < 16 then s.setReg ⟨k, h⟩ b else s).setRegs (k + 1) bs

/-! ### Program counter (spec/10_state.md R13, spec/40_flow.md R80, R85)

A meaning is given the state with `PC` = `pc0`; it advances `PC` itself. -/

/-- The advance past the instruction: `PC` = `pc0 + 2`. -/
def State.advance (s : State) : State := { s with pc := s.pc + 2 }

/-- `PC` = `pc0 + 4` if the condition holds, else `pc0 + 2` (R85). -/
def State.skipIf (s : State) (c : Bool) : State := { s with pc := if c then s.pc + 4 else s.pc + 2 }

/-- `PC <- target`; the target is not checked (spec/40_flow.md R81). -/
def State.jump (s : State) (target : Word) : State := { s with pc := target }

/-! ### Call stack (spec/10_state.md R17 to R20) -/

/-- `Push(a)`; `none` raises `StackOverflow` (R19). -/
def State.push (s : State) (a : Word) : Option State :=
  if h : s.sp.val < 16 then
    some { s with stack := s.stack.set s.sp.val a, sp := ⟨s.sp.val + 1, Nat.succ_lt_succ h⟩ }
  else none

/-- `Pop()`, leaving the popped entry in place; `none` raises `StackUnderflow` (R20, D13). -/
def State.pop (s : State) : Option (Word × State) :=
  if 0 < s.sp.val then
    some (s.stack[s.sp.val - 1]'(by omega), { s with sp := ⟨s.sp.val - 1, by omega⟩ })
  else none

/-! ### Pixel buffer (spec/10_state.md R24) -/

/-- The pixel at column `px`, row `py`; coordinates always wrap. -/
def Screen.pixel (fb : Screen) (px py : Nat) : Bool :=
  (fb[py % 32]'(Nat.mod_lt _ (by decide)))[px % 64]'(Nat.mod_lt _ (by decide))

/-- Exclusive OR of the pixel at column `px`, row `py` with 1; coordinates always wrap. -/
def Screen.toggle (fb : Screen) (px py : Nat) : Screen :=
  fb.set (py % 32) ((fb[py % 32]'(Nat.mod_lt _ (by decide))).set (px % 64) (!fb.pixel px py) (Nat.mod_lt _ (by decide)))
    (Nat.mod_lt _ (by decide))

end Sys2Proof.Machine
end

