-- ==== Sys2Proof/Machine/Flags.lean ====
section
/-! DEFINITION. Every flag computation: VF is the machine's only flag (spec/10_state.md R11), written as a full byte 0x00 or 0x01,
after the result (spec/41_alu.md R105, D5; log entry 8). -/

namespace Sys2Proof.Machine

/-- VF is `V[15]` (spec/10_state.md R11). -/
def vf : Reg := 15

/-- A flag as the byte VF holds. -/
def flagByte (c : Bool) : Byte := if c then 0x01 else 0x00

/-- Carry out of bit 7 of `a + b` (spec/41_alu.md R106). -/
def carryFlag (a b : Byte) : Bool := decide (a.toNat + b.toNat > 255)

/-- NOT borrow of `a - b`, unsigned, equality included (spec/41_alu.md R107, R109). -/
def notBorrowFlag (a b : Byte) : Bool := decide (a.toNat ≥ b.toNat)

/-- The bit a right shift by one loses (spec/41_alu.md R108). -/
def lowBitFlag (a : Byte) : Bool := a.getLsbD 0

/-- The bit a left shift by one loses (spec/41_alu.md R110). -/
def highBitFlag (a : Byte) : Bool := a.getLsbD 7

/-- Writing VF as a flag. -/
def State.setFlag (s : State) (c : Bool) : State := s.setReg vf (flagByte c)

/-- Steps (3) and (4) of R105: the result to `V[x]`, then the flag to VF, so with `x` = F the flag stays. -/
def State.writeFlagged (s : State) (x : Reg) (result : Byte) (flag : Bool) : State := (s.setReg x result).setFlag flag

end Sys2Proof.Machine
end

