-- ==== Sys2Proof/Machine/Operands.lean ====
section
/-! DEFINITION. Every operand form of the instruction set (spec/30_encoding.md R63, spec/42_index_memory.md R126): addresses from
`nnn`, effective addresses through `I`, the key index, the glyph address, decimal digits and the bits of a sprite row. -/

namespace Sys2Proof.Machine

/-- `zext_16(nnn)`: an absolute address (R63). -/
def addrOperand (nnn : BitVec 12) : Word := nnn.setWidth 16

/-- `zext_16(V[0]) + zext_16(nnn)`, not reduced (spec/40_flow.md R90). -/
def indexedTarget (v0 : Byte) (nnn : BitVec 12) : Word := v0.setWidth 16 + nnn.setWidth 16

/-- The base of the one data addressing mode `I + k`, a natural number (spec/42_index_memory.md R126). -/
def State.dataBase (s : State) : Nat := s.i.toNat

/-- `(I + zext_16(V[x])) mod 4096` (spec/42_index_memory.md R121). -/
def indexSum (i : Word) (b : Byte) : Word := BitVec.ofNat 16 ((i.toNat + b.toNat) % 4096)

/-- `FONT_BASE + zext_16(V[x]) * 5`, without masking `V[x]` (spec/42_index_memory.md R122, D7; log entry 10). -/
def glyphAddr (b : Byte) : Word := BitVec.ofNat 16 (Config.fontBase + b.toNat * Config.glyphBytes)

/-- Hundreds, tens and units of a byte, one digit a byte (spec/42_index_memory.md R123). -/
def decimalDigits (b : Byte) : List Byte :=
  [BitVec.ofNat 8 (b.toNat / 100), BitVec.ofNat 8 (b.toNat / 10 % 10), BitVec.ofNat 8 (b.toNat % 10)]

/-- `key[V[x]]`; `none` raises `OutOfBounds`, for an index of 16 or more (spec/44_keypad_timers.md R140, D6; log entry 9). -/
def State.keyAt (s : State) (k : Byte) : Option Bool := if h : k.toNat < 16 then some s.key[k.toNat] else none

/-- The least `k` with `key[k] = 1`, if any key is pressed (spec/44_keypad_timers.md R143). -/
def State.lowestKey (s : State) : Option Nat := s.key.toList.findIdx? id

/-- `SPRITE_MSB_FIRST` (spec/00_scope.md R6, spec/43_display.md R132). PRESUMED: the spec takes the order from general knowledge
(log entry 4). -/
def spriteMsbFirst : Bool := true

/-- The bit of a sprite row for the `j`-th column of the sprite, `j` in 0..7 (spec/43_display.md R132). -/
def spriteBit (row : Byte) (j : Nat) : Bool := if spriteMsbFirst then row.getLsbD (7 - j) else row.getLsbD j

end Sys2Proof.Machine
end

