-- ==== Sys2Proof/Machine/Alu.lean ====
section
/-! DEFINITION. The load, arithmetic, logic, shift and random instructions of spec/41_alu.md. All arithmetic is unsigned modulo 256
(R113); operands are read before anything is written (R105). -/

namespace Sys2Proof.Machine

/-- `6xkk` (R100). -/
def execLdVxByte (x : Reg) (kk : Byte) (s : State) : Result := .next (s.setReg x kk).advance

/-- `7xkk`: no flag (R101). -/
def execAddVxByte (x : Reg) (kk : Byte) (s : State) : Result := .next (s.setReg x (s.reg x + kk)).advance

/-- `8xy0` (R102). -/
def execLdVxVy (x y : Reg) (s : State) : Result := .next (s.setReg x (s.reg y)).advance

/-- `8xy1`: VF is not written (R103). -/
def execOrVxVy (x y : Reg) (s : State) : Result := .next (s.setReg x (s.reg x ||| s.reg y)).advance

/-- `8xy2`: VF is not written (R104). -/
def execAndVxVy (x y : Reg) (s : State) : Result := .next (s.setReg x (s.reg x &&& s.reg y)).advance

/-- `8xy3`: VF is not written (R112). -/
def execXorVxVy (x y : Reg) (s : State) : Result := .next (s.setReg x (s.reg x ^^^ s.reg y)).advance

/-- `8xy4`: VF = carry (R106). -/
def execAddVxVy (x y : Reg) (s : State) : Result :=
  .next (s.writeFlagged x (s.reg x + s.reg y) (carryFlag (s.reg x) (s.reg y))).advance

/-- `8xy5`: VF = NOT borrow (R107). -/
def execSubVxVy (x y : Reg) (s : State) : Result :=
  .next (s.writeFlagged x (s.reg x - s.reg y) (notBorrowFlag (s.reg x) (s.reg y))).advance

/-- `8xy6`: shifts `V[x]`; the `y` field is ignored (R108). -/
def execShrVx (x _y : Reg) (s : State) : Result :=
  .next (s.writeFlagged x (s.reg x >>> 1) (lowBitFlag (s.reg x))).advance

/-- `8xy7`: VF = NOT borrow of the reversed subtraction (R109). -/
def execSubnVxVy (x y : Reg) (s : State) : Result :=
  .next (s.writeFlagged x (s.reg y - s.reg x) (notBorrowFlag (s.reg y) (s.reg x))).advance

/-- `8xyE`: shifts `V[x]`; the `y` field is ignored (R110). -/
def execShlVx (x _y : Reg) (s : State) : Result :=
  .next (s.writeFlagged x (s.reg x <<< 1) (highBitFlag (s.reg x))).advance

/-- One draw of the random source: the free byte and the state that has consumed it (R111, log entry 5). -/
def State.drawByte (s : State) : Byte × State := (Config.randomByte s.draws, { s with draws := s.draws + 1 })

/-- `Cxkk`: consumes one draw, whatever `kk` (R111). -/
def execRndVxByte (x : Reg) (kk : Byte) (s : State) : Result :=
  .next (s.drawByte.2.setReg x (s.drawByte.1 &&& kk)).advance

end Sys2Proof.Machine
end

