-- ==== Sys2Proof/Machine/Display.lean ====
section
/-! DEFINITION. The display instructions of spec/43_display.md: `00E0 Dxyn`, with the sprite drawer and collision detector. -/

namespace Sys2Proof.Machine

/-- `00E0`: sets `dirty` even when every pixel was off (R130). -/
def execCls (s : State) : Result := .next { s with fb := Screen.blank, dirty := true }.advance

/-- What the two loops of R131 carry: the pixels, `collision` and `changed`. -/
structure Canvas where
  fb : Screen
  collision : Bool
  changed : Bool
  deriving DecidableEq, Repr

/-- The body of R131's inner loop for a sprite bit at column `px`, row `py`: a 1 bit tests, toggles and marks; a 0 bit does
nothing. -/
def Canvas.plot (c : Canvas) (bit : Bool) (px py : Nat) : Canvas :=
  if bit then ⟨c.fb.toggle px py, c.collision || c.fb.pixel px py, true⟩ else c

/-- The inner loop: the 8 bits of one row byte from column `xo` of row `py`. -/
def Canvas.plotRow (c : Canvas) (xo py : Nat) (row : Byte) : Canvas :=
  (List.range 8).foldl (fun c j => c.plot (spriteBit row j) (xo + j) py) c

/-- The outer loop: the rows from row `yo` down. -/
def Canvas.plotRows (c : Canvas) (xo yo : Nat) : List Byte → Canvas
  | [] => c
  | row :: rows => (c.plotRow xo yo row).plotRows xo (yo + 1) rows

/-- `draw(x, y, sprite_rows)` on a pixel buffer (R131). -/
def drawSprite (fb : Screen) (xo yo : Nat) (rows : List Byte) : Canvas := (Canvas.mk fb false false).plotRows xo yo rows

/-- `Dxyn`: reads the coordinates and all rows first, then writes the pixels, VF and, if a pixel changed, `dirty` (R131). -/
def execDrwVxVyNibble (x y : Reg) (n : Nat) (s : State) : Result :=
  match memReadBytes s s.dataBase n with
  | none => raise .outOfBounds s
  | some rows =>
    let c := drawSprite s.fb (s.reg x).toNat (s.reg y).toNat rows
    .next ({ s with fb := c.fb, dirty := s.dirty || c.changed }.setFlag c.collision).advance

end Sys2Proof.Machine
end

