-- ==== Sys2Proof/Machine/Flow.lean ====
section
/-! DEFINITION. The control-transfer instructions of spec/40_flow.md: `00EE 1nnn 2nnn 3xkk 4xkk 5xy0 9xy0 Bnnn`. Each meaning is
given the state with `PC` = `pc0`. -/

namespace Sys2Proof.Machine

/-- `00EE` (R82). -/
def execRet (s : State) : Result :=
  match s.pop with
  | none => raise .stackUnderflow s
  | some (a, t) => .next (t.jump a)

/-- `1nnn` (R83). -/
def execJpAddr (nnn : BitVec 12) (s : State) : Result := .next (s.jump (addrOperand nnn))

/-- `2nnn`: pushes the advanced `PC` (R84). -/
def execCallAddr (nnn : BitVec 12) (s : State) : Result :=
  match s.push (s.pc + 2) with
  | none => raise .stackOverflow s
  | some t => .next (t.jump (addrOperand nnn))

/-- `3xkk` (R86). -/
def execSeVxByte (x : Reg) (kk : Byte) (s : State) : Result := .next (s.skipIf (s.reg x == kk))

/-- `4xkk` (R87). -/
def execSneVxByte (x : Reg) (kk : Byte) (s : State) : Result := .next (s.skipIf (s.reg x != kk))

/-- `5xy0` (R88). -/
def execSeVxVy (x y : Reg) (s : State) : Result := .next (s.skipIf (s.reg x == s.reg y))

/-- `9xy0` (R89). -/
def execSneVxVy (x y : Reg) (s : State) : Result := .next (s.skipIf (s.reg x != s.reg y))

/-- `Bnnn`: the register is always `V[0]` (R90). -/
def execJpV0Addr (nnn : BitVec 12) (s : State) : Result := .next (s.jump (indexedTarget (s.reg 0) nnn))

end Sys2Proof.Machine
end

