-- ==== Sys2Proof/Machine/IndexMemory.lean ====
section
/-! DEFINITION. The address-register and memory instructions of spec/42_index_memory.md: `Annn Fx1E Fx29 Fx33 Fx55 Fx65`. None writes
VF as a flag; a load or store leaves `I` as it is (D8; log entry 11). -/

namespace Sys2Proof.Machine

/-- `Annn` (R120). -/
def execLdIAddr (nnn : BitVec 12) (s : State) : Result := .next { s with i := addrOperand nnn }.advance

/-- `Fx1E`: wraps modulo 4096, no flag (R121). -/
def execAddIVx (x : Reg) (s : State) : Result := .next { s with i := indexSum s.i (s.reg x) }.advance

/-- `Fx29` (R122). -/
def execLdFVx (x : Reg) (s : State) : Result := .next { s with i := glyphAddr (s.reg x) }.advance

/-- The stores of one instruction from `I` on, or `OutOfBounds` with nothing written (R126). -/
def storeAtI (bs : List Byte) (s : State) : Result :=
  match memWriteBytes s s.dataBase bs with
  | none => raise .outOfBounds s
  | some t => .next t.advance

/-- `Fx33` (R123). -/
def execLdBVx (x : Reg) (s : State) : Result := storeAtI (decimalDigits (s.reg x)) s

/-- `Fx55`: `V[0]` to `V[x]` inclusive (R124). -/
def execLdMemVx (x : Reg) (s : State) : Result := storeAtI (s.regBytes (x.val + 1)) s

/-- `Fx65`: `V[0]` to `V[x]` inclusive (R125). -/
def execLdVxMem (x : Reg) (s : State) : Result :=
  match memReadBytes s s.dataBase (x.val + 1) with
  | none => raise .outOfBounds s
  | some bs => .next (s.setRegs 0 bs).advance

end Sys2Proof.Machine
end

