-- ==== Sys2Proof/Machine/KeypadTimers.lean ====
section
/-! DEFINITION. The keypad and timer instructions of spec/44_keypad_timers.md: `Ex9E ExA1 Fx0A Fx07 Fx15 Fx18`. None writes VF as a
flag. -/

namespace Sys2Proof.Machine

/-- `Ex9E`: the level of the latch at this step (R141). -/
def execSkpVx (x : Reg) (s : State) : Result :=
  match s.keyAt (s.reg x) with
  | none => raise .outOfBounds s
  | some pressed => .next (s.skipIf pressed)

/-- `ExA1` (R142). -/
def execSknpVx (x : Reg) (s : State) : Result :=
  match s.keyAt (s.reg x) with
  | none => raise .outOfBounds s
  | some pressed => .next (s.skipIf (!pressed))

/-- `Fx0A`: with no key pressed `PC` stays `pc0` and nothing changes, so the next step fetches the instruction again
(R143, R144). -/
def execLdVxK (x : Reg) (s : State) : Result :=
  match s.lowestKey with
  | none => .next s
  | some k => .next (s.setReg x (BitVec.ofNat 8 k)).advance

/-- `Fx07` (R145). -/
def execLdVxDt (x : Reg) (s : State) : Result := .next (s.setReg x s.dt).advance

/-- `Fx15` (R146). -/
def execLdDtVx (x : Reg) (s : State) : Result := .next { s with dt := s.reg x }.advance

/-- `Fx18` (R147). -/
def execLdStVx (x : Reg) (s : State) : Result := .next { s with st := s.reg x }.advance

end Sys2Proof.Machine
end

