-- ==== Sys2Proof/Machine/Fetch.lean ====
section
/-! DEFINITION. Fetching and decoding the instruction of a step (spec/40_flow.md R80), and placing an instruction word where the next
step fetches it. -/

namespace Sys2Proof.Machine

/-- Fetch, then decode: the instruction at `PC`, or the fault of the stage that fails first (R80, spec/60_exceptions.md R161). -/
def State.fetchInstr (s : State) : Except Fault Instr :=
  match s.fetchWord with
  | none => .error .outOfBounds
  | some op =>
    match decode op with
    | .error _ => .error .illegalInstruction
    | .ok i => .ok i

/-- The state that fetches the word `op` next: running, `PC` at an address that can be fetched from (its own, or the program
base where its own is 4095 or above), and the word's two bytes there. It stands for the outside's loading of a program
(log entry 17). -/
def State.placeWord (s : State) (op : Word) : State :=
  let pc := if s.pc.toNat + 1 < Config.memSize then s.pc else BitVec.ofNat 16 Config.progBase
  { s with pc := pc, latch := .running, mem := s.mem.writeBytes pc.toNat (bytesOfWord op) }

end Sys2Proof.Machine
end

