-- ==== Sys2Proof/Machine/Step.lean ====
section
/-! DEFINITION. One `step` event (spec/40_flow.md R80, spec/60_exceptions.md R156, R160). -/

namespace Sys2Proof.Machine

/-- One `step`: a halted machine changes nothing (R156); otherwise the fault of fetch or decode is taken, or the decoded
instruction is executed (R80). -/
def step (s : State) : Host.Outcome State Fault Refusal :=
  match s.latch with
  | .halted _ => .next s
  | .running =>
    match s.fetchInstr with
    | .error k => raise k s
    | .ok i => exec i s

/-- `s` with the instruction whose bits are `w` (bit 0 the least significant bit of the 16-bit word, bits from `nbits` up zero)
stored where the next step fetches. -/
def State.withFetchWord (s : State) (nbits w : Nat) : State := s.placeWord (BitVec.ofNat 16 (w % 2 ^ nbits))

end Sys2Proof.Machine
end

