-- ==== Sys2Proof/Machine/Events.lean ====
section
/-! DEFINITION. The host interface beside `step` (spec/60_exceptions.md section 4, spec/70_reset_and_hazards.md section 1): the result of
a step, the events `init`, `tick`, `set_key`, `present`, and the read accessors. Events are atomic and fall between steps
(log entry 15). -/

namespace Sys2Proof.Machine

/-! ### The result of a step (R160) -/

/-- What a step returns to the host: the fault record, or a `StepOutcome` with its one field. -/
inductive StepReport where
  | fault (record : FaultRecord)
  | outcome (becameDirty : Bool)
  deriving DecidableEq, Repr

/-- Whether executing an instruction writes `dirty <- 1`: `00E0`, or a `Dxyn` that changes a pixel (R160, D14;
log entry 13). -/
def writesDirty (i : Instr) (s : State) : Bool :=
  match i with
  | .cls => true
  | .drwVxVyNibble x y n =>
    match memReadBytes s s.dataBase n with
    | none => false
    | some rows => (drawSprite s.fb (s.reg x).toNat (s.reg y).toNat rows).changed
  | .ret | .jpAddr _ | .callAddr _ | .seVxByte _ _ | .sneVxByte _ _ | .seVxVy _ _ | .ldVxByte _ _ | .addVxByte _ _
  | .ldVxVy _ _ | .orVxVy _ _ | .andVxVy _ _ | .xorVxVy _ _ | .addVxVy _ _ | .subVxVy _ _ | .shrVx _ _ | .subnVxVy _ _
  | .shlVx _ _ | .sneVxVy _ _ | .ldIAddr _ | .jpV0Addr _ | .rndVxByte _ _ | .skpVx _ | .sknpVx _ | .ldVxDt _ | .ldVxK _
  | .ldDtVx _ | .ldStVx _ | .addIVx _ | .ldFVx _ | .ldBVx _ | .ldMemVx _ | .ldVxMem _ => false

/-- The report of a step that left the state `t` and wrote `dirty` or not. -/
def reportOf (t : State) (dirtied : Bool) : StepReport :=
  match t.latch with
  | .halted r => .fault r
  | .running => .outcome dirtied

/-- The result of a `step` event on `s` (R160); a halted machine reports its record again (R156). -/
def stepReport (s : State) : StepReport :=
  match step s with
  | .next t =>
    match s.fetchInstr with
    | .ok i => reportOf t (writesDirty i s)
    | .error _ => reportOf t false
  | .fault k => .fault ⟨k, s.fetchWord, s.pc⟩
  | .refused _ => .outcome false

/-! ### Events -/

/-- A down-counter floored at 0 (R162). -/
def tickDown (b : Byte) : Byte := if b.toNat > 0 then b - 1 else b

/-- `tick` (R162). -/
def State.tick (s : State) : State := { s with dt := tickDown s.dt, st := tickDown s.st }

/-- `set_key(k, p)`; an index of 16 or more changes nothing (R163, D15; log entry 14). -/
def State.setKey (k : Nat) (p : Bool) (s : State) : State := if h : k < 16 then { s with key := s.key.set k p } else s

/-- `present`: the renderer has read `fb`; `dirty <- 0` (R164, D14; log entry 13). -/
def State.present (s : State) : State := { s with dirty := false }

/-- Why `init` gives no machine (spec/70_reset_and_hazards.md R181). The first two arise in the external collaborator that obtains the
bytes and are produced by nothing here. -/
inductive LoadError where
  | romNotFound
  | romUnreadable
  | romTooLarge
  deriving DecidableEq, Repr

/-- Memory after `init`: cleared, then `FONT_TABLE` at `FONT_BASE`, then the ROM at `PROG_BASE` (R180). -/
def initMemory (font : Config.FontTable) (rom : List Byte) : Memory :=
  (State.reset.mem.writeBytes Config.fontBase font.toList).writeBytes Config.progBase rom

/-- `init(rom)`, the only reset (R180, R182), of a hardware whose parameter `FONT_TABLE` is `font` (R31, D10). -/
def State.init (font : Config.FontTable) (rom : List Byte) : Except LoadError State :=
  if rom.length ≤ Config.memSize - Config.progBase then .ok { State.reset with mem := initMemory font rom }
  else .error .romTooLarge

/-! ### Read accessors (R165, R166) -/

/-- `display_pixels`: row-major, element `y*64 + x` is `fb[y][x]`. -/
def State.displayPixels (s : State) : List Bool := s.fb.toList.flatMap Vector.toList

/-- `delay_timer`. -/
def State.delayTimer (s : State) : Byte := s.dt

/-- `sound_timer`. -/
def State.soundTimer (s : State) : Byte := s.st

/-! ### Event sequences (spec/00_scope.md R7, R167) -/

/-- The events of R7. -/
inductive Event where
  | init (rom : List Byte)
  | step
  | tick
  | setKey (k : Nat) (p : Bool)
  | present
  deriving DecidableEq, Repr

/-- A `step` as a state transformer: every step answers a next state. -/
def State.stepped (s : State) : State :=
  match step s with
  | .next t => t
  | .fault _ | .refused _ => s

/-- What events act on: a machine, or no machine, as before the first `init` and after a failed one (R181, D20; log entry 16).
The random source outlives machines (R28: it is no state of one), so its position stands beside the absence of one too
(log entry 5). -/
inductive Session where
  | absent (draws : Nat)
  | living (machine : State)
  deriving DecidableEq, Repr

/-- The position of the random source: how many bytes it has answered. -/
def Session.draws : Session → Nat
  | .absent d => d
  | .living s => s.draws

/-- An event that acts on a machine and does nothing where there is none. -/
def Session.onMachine (f : State → State) : Session → Session
  | .absent d => .absent d
  | .living s => .living (f s)

/-- The session an `init` leaves: the new machine or, after a load error, none; the random source goes on from its position in
both cases (log entry 5). -/
def Session.initialised (made : Except LoadError State) (d : Nat) : Session :=
  match made with
  | .error _ => .absent d
  | .ok s => .living { s with draws := d }

/-- One event (R7, R167); where there is no machine only an `init` acts (R181, R182). -/
def Event.apply (font : Config.FontTable) : Event → Session → Session
  | .init rom, m => Session.initialised (State.init font rom) m.draws
  | .step, m => m.onMachine State.stepped
  | .tick, m => m.onMachine State.tick
  | .setKey k p, m => m.onMachine (State.setKey k p)
  | .present, m => m.onMachine State.present

/-- A sequence of events in order, on a hardware whose parameter `FONT_TABLE` is `font`. -/
def runEvents (font : Config.FontTable) (es : List Event) (m : Session) : Session := es.foldl (fun m e => e.apply font m) m

end Sys2Proof.Machine
end

