-- ==== Sys2Proof/Safety.lean ====
section
/-! DEFINITION. The terms claims are stated in: the machine's invariant (spec/10_state.md R33), which parts of the state two states
share (frames), which registers an instruction may write (R12), and safe runs. -/

namespace Sys2Proof.Machine

/-- The invariant of R33: `I < 4096`, `PC <= 0x10FE`, every held stack entry is 2 to 4096 (`SP <= 16` is in its type); with two
clauses that are not R33's: memory is in the model's own canonical form (log entry 3), and a latched record names `PC` and the word
there, absent only for `OutOfBounds` (spec/60_exceptions.md R155, R172, decisions D2, D4; log entries 6, 7). -/
abbrev State.Inv (s : State) : Prop :=
  s.mem.wf = true ∧
  s.i.toNat < 4096 ∧
  s.pc.toNat ≤ 0x10FE ∧
  (∀ j : Fin 16, j.val < s.sp.val → 2 ≤ (s.stack[j.val]).toNat ∧ (s.stack[j.val]).toNat ≤ 4096) ∧
  (∀ r ∈ s.faultRec, r.pc = s.pc ∧ r.opcode = s.fetchWord ∧ (r.opcode = none → r.kind = .outOfBounds))

/-- The parts of the state, as the tuple of spec/10_state.md names them, and the model's counter of draws. -/
inductive Part where
  | regs | index | pc | sp | stack | dt | st | mem | fb | dirty | key | latch | draws
  deriving DecidableEq, Repr

/-- Two states agree on a part; memory agrees when every address reads the same byte. -/
def Part.Same : Part → State → State → Prop
  | .regs, s, t => ∀ r, t.reg r = s.reg r
  | .index, s, t => t.i = s.i
  | .pc, s, t => t.pc = s.pc
  | .sp, s, t => t.sp = s.sp
  | .stack, s, t => t.stack = s.stack
  | .dt, s, t => t.dt = s.dt
  | .st, s, t => t.st = s.st
  | .mem, s, t => ∀ a, t.mem.read a = s.mem.read a
  | .fb, s, t => t.fb = s.fb
  | .dirty, s, t => t.dirty = s.dirty
  | .key, s, t => t.key = s.key
  | .latch, s, t => t.latch = s.latch
  | .draws, s, t => t.draws = s.draws

/-- `t` agrees with `s` on every part outside the list. -/
def State.SameBut (s t : State) (changed : List Part) : Prop := ∀ p, p ∉ changed → p.Same s t

/-- `t` agrees with `s` on every general register outside the list. -/
def State.RegsBut (s t : State) (written : List Reg) : Prop := ∀ r, r ∉ written → t.reg r = s.reg r

/-- The machine is running and the instruction at `PC` is `i`. -/
def State.Runs (s : State) (i : Instr) : Prop := s.latch = .running ∧ s.fetchInstr = .ok i

/-- The registers an instruction may write: its destinations, and VF for the six that write it as a flag (R11, R12). -/
def WritesReg (i : Instr) (r : Reg) : Prop :=
  match i with
  | .ldVxByte x _ | .addVxByte x _ | .ldVxVy x _ | .orVxVy x _ | .andVxVy x _ | .xorVxVy x _ | .rndVxByte x _
  | .ldVxDt x | .ldVxK x => r = x
  | .addVxVy x _ | .subVxVy x _ | .shrVx x _ | .subnVxVy x _ | .shlVx x _ => r = x ∨ r = vf
  | .drwVxVyNibble _ _ _ => r = vf
  | .ldVxMem x => r ≤ x
  | .cls | .ret | .jpAddr _ | .callAddr _ | .seVxByte _ _ | .sneVxByte _ _ | .seVxVy _ _ | .sneVxVy _ _ | .ldIAddr _
  | .jpV0Addr _ | .skpVx _ | .sknpVx _ | .ldDtVx _ | .ldStVx _ | .addIVx _ | .ldFVx _ | .ldBVx _ | .ldMemVx _ => False

/-- Some 1 bit of the sprite rows lands on the pixel at column `px`, row `py`, when the sprite is drawn at (`xo`, `yo`)
(spec/43_display.md R131). -/
def SpriteCovers (rows : List Byte) (xo yo px py : Nat) : Prop :=
  ∃ k j, ∃ h : k < rows.length, j < 8 ∧ (rows[k]'h).getLsbD (7 - j) = true ∧ px = (xo + j) % 64 ∧ py = (yo + k) % 32

/-- How many pixels are on. -/
def Screen.lit (fb : Screen) : Nat := (fb.toList.map fun row => row.toList.count true).sum

/-- A run under events of a living machine in which no state is halted: what claims about programs take as a premise
(spec/60_exceptions.md R156: a halted state is never a successful end). -/
def SafeRun (font : Config.FontTable) : List Event → State → Prop
  | [], s => s.halted = false
  | e :: es, s => s.halted = false ∧ ∃ t, e.apply font (.living s) = .living t ∧ SafeRun font es t

end Sys2Proof.Machine
end

