-- ==== Sys2Proof/Certificates/Slice0/Obligations.lean ====
section
/-! DEFINITION. The statements about the machine. Each docstring says which rule of spec/ it formalises; where a clause rests on one
of the spec's own decisions (D<n>) or on a choice of the model, it names the decision and the log entry. -/

open Sys2Proof Sys2Proof.Machine

/-! ### Encoding -/

/-- Every well-formed instruction is read back from its word, with every operand (spec/30_encoding.md R61, R62, R65). -/
def Obligations.DecodeOfEncodeIsTheInstruction : Prop :=
  ∀ i : Instr, i.wellFormed = true → decode (encode i) = .ok i

/-- A word that decodes is the word of the instruction it decodes to, and that instruction is well-formed: no word has two readings
and no bit of a legal word is dropped, the ignored `y` of `8xy6`, `8xyE` included (spec/30_encoding.md R64, R68). -/
def Obligations.EncodeOfDecodeIsTheWord : Prop :=
  ∀ (op : Word) (i : Instr), decode op = .ok i → i.wellFormed = true ∧ encode i = op

/-- The decoder and the opcode map agree: a decoded word satisfies `op & mask = match` of its instruction's row, and a word that
satisfies a row's is decoded to an instruction of that row (spec/30_encoding.md R64, R65). -/
def Obligations.DecodeFollowsTheOpcodeMap : Prop :=
  (∀ (op : Word) (i : Instr), decode op = .ok i → op &&& (opcodeRow i).2 = (opcodeRow i).1) ∧
  (∀ (op : Word) (i : Instr), op &&& (opcodeRow i).2 = (opcodeRow i).1 →
    ∃ j, decode op = .ok j ∧ opcodeRow j = opcodeRow i)

/-- The decoder rejects exactly the words of R67's table (spec/30_encoding.md R67, without the counts). -/
def Obligations.RejectedWordsAreTheIllegalOnes : Prop :=
  ∀ op : Word, (∃ r, decode op = .error r) ↔
    (op.toNat < 0x1000 ∧ op ≠ 0x00E0 ∧ op ≠ 0x00EE) ∨
    (op.toNat / 0x1000 = 0x5 ∧ op.toNat % 0x10 ≠ 0) ∨
    (op.toNat / 0x1000 = 0x8 ∧ op.toNat % 0x10 ∈ [0x8, 0x9, 0xA, 0xB, 0xC, 0xD, 0xF]) ∨
    (op.toNat / 0x1000 = 0x9 ∧ op.toNat % 0x10 ≠ 0) ∨
    (op.toNat / 0x1000 = 0xE ∧ op.toNat % 0x100 ∉ [0x9E, 0xA1]) ∨
    (op.toNat / 0x1000 = 0xF ∧ op.toNat % 0x100 ∉ [0x07, 0x0A, 0x15, 0x18, 0x1E, 0x29, 0x33, 0x55, 0x65])

/-- The words the function nibbles and function bytes leave free raise `IllegalInstruction` with the word (spec/41_alu.md R114,
spec/44_keypad_timers.md R148). A raise shows as the record of the fault latch (log entry 7). -/
def Obligations.UnlistedFunctionCodesRaiseIllegalInstruction : Prop :=
  ∀ (s : State) (op : Word), s.latch = .running → s.fetchWord = some op →
    ((op.toNat / 0x1000 = 0x8 ∧ op.toNat % 0x10 ∈ [0x8, 0x9, 0xA, 0xB, 0xC, 0xD, 0xF]) ∨
      (op.toNat / 0x1000 = 0xE ∧ op.toNat % 0x100 ∉ [0x9E, 0xA1]) ∨
      (op.toNat / 0x1000 = 0xF ∧ op.toNat % 0x100 ∉ [0x07, 0x0A, 0x15, 0x18, 0x1E, 0x29, 0x33, 0x55, 0x65])) →
    ∃ t r, step s = .next t ∧ t.faultRec = some r ∧ r.kind = .illegalInstruction ∧ r.opcode = some op

/-- Words written out in the spec's rules decode to the instructions they are examples of, one or more per family
(spec/30_encoding.md R65; that 0x8127 is SUBN and 0x810E is SHL is the spec's reading of the list order, N6, DEDUCED,
log entry 20). -/
def Obligations.ExampleWordsDecode : Prop :=
  decode 0x00E0 = .ok .cls ∧ decode 0x00EE = .ok .ret ∧ decode 0x1ABC = .ok (.jpAddr 0xABC) ∧
  decode 0x332A = .ok (.seVxByte 3 0x2A) ∧ decode 0x9120 = .ok (.sneVxVy 1 2) ∧ decode 0x6A9C = .ok (.ldVxByte 0xA 0x9C) ∧
  decode 0x8127 = .ok (.subnVxVy 1 2) ∧ decode 0x810E = .ok (.shlVx 1 0) ∧ decode 0xC30F = .ok (.rndVxByte 3 0x0F) ∧
  decode 0xF21E = .ok (.addIVx 2) ∧ decode 0xFA33 = .ok (.ldBVx 0xA) ∧ decode 0xD125 = .ok (.drwVxVyNibble 1 2 5) ∧
  decode 0xE4A1 = .ok (.sknpVx 4) ∧ decode 0xF50A = .ok (.ldVxK 5)

/-! ### The step, faults and the halted machine -/

/-- The fetch is big-endian: the byte at the lower address is the more significant, and the read fails exactly when its second
address does not exist (spec/20_memory.md R42); the instruction word is that read at `PC` (spec/40_flow.md R80). -/
def Obligations.InstructionFetchIsBigEndian : Prop :=
  ∀ s : State,
    (∀ a, memReadWord s a =
      if a + 1 ≥ 4096 then none else some (BitVec.ofNat 16 ((s.mem.read a).toNat * 256 + (s.mem.read (a + 1)).toNat))) ∧
    (∀ op, s.fetchWord = some op →
      op.extractLsb' 8 8 = s.mem.read s.pc.toNat ∧ op.extractLsb' 0 8 = s.mem.read (s.pc.toNat + 1))

/-- A step of a running machine executes the instruction that the two bytes at `PC` decode to, in the state as it is: a meaning
advances `PC` itself (spec/40_flow.md R80). -/
def Obligations.StepExecutesTheDecodedInstruction : Prop :=
  ∀ (s : State) (i : Instr), s.latch = .running → s.pc.toNat + 1 < 4096 →
    decode (BitVec.ofNat 16 ((s.mem.read s.pc.toNat).toNat * 256 + (s.mem.read (s.pc.toNat + 1)).toNat)) = .ok i →
    step s = exec i s

/-- A fetch at 4095 or above, and a word that decodes to nothing, end the step with the fault and its record, and nothing else
changed (spec/40_flow.md R80, spec/60_exceptions.md R161, R172; decisions D2, D4, D11, log entries 6, 7, 12). -/
def Obligations.FetchAndDecodeFaultsAreTaken : Prop :=
  ∀ s : State, s.latch = .running →
    (4095 ≤ s.pc.toNat → step s = .next { s with latch := .halted ⟨.outOfBounds, none, s.pc⟩ }) ∧
    (∀ (op : Word) (r : Reject), s.fetchWord = some op → decode op = .error r →
      step s = .next { s with latch := .halted ⟨.illegalInstruction, some op, s.pc⟩ })

/-- Faults are precise: a step that ends halted changed the latch alone, and the record holds `pc0` and the fetched word, absent
when the fetch itself faulted (spec/60_exceptions.md R155, R172; decisions D2, D4, log entries 6, 7). -/
def Obligations.FaultingStepChangesOnlyTheLatch : Prop :=
  ∀ (s t : State) (r : FaultRecord), s.latch = .running → step s = .next t → t.latch = .halted r →
    t = { s with latch := .halted r } ∧ r.pc = s.pc ∧
    (4095 ≤ s.pc.toNat → r.kind = .outOfBounds ∧ r.opcode = none) ∧
    (s.pc.toNat < 4095 → r.opcode =
      some (BitVec.ofNat 16 ((s.mem.read s.pc.toNat).toNat * 256 + (s.mem.read (s.pc.toNat + 1)).toNat)))

/-- `StackOverflow`, `StackUnderflow` and `IllegalInstruction` have one cause each, and that cause always raises them
(spec/60_exceptions.md R152, R153, R154). A raise shows as the record of the fault latch (log entry 7). -/
def Obligations.StackAndDecodeFaultsHaveOneCause : Prop :=
  ∀ s : State, s.latch = .running →
    ((∃ t r, step s = .next t ∧ t.faultRec = some r ∧ r.kind = .stackOverflow) ↔
      ∃ nnn, s.fetchInstr = .ok (.callAddr nnn) ∧ s.sp.val = 16) ∧
    ((∃ t r, step s = .next t ∧ t.faultRec = some r ∧ r.kind = .stackUnderflow) ↔
      s.fetchInstr = .ok .ret ∧ s.sp.val = 0) ∧
    (∀ op, (∃ t r, step s = .next t ∧ t.faultRec = some r ∧ r.kind = .illegalInstruction ∧ r.opcode = some op) ↔
      s.fetchWord = some op ∧ ∃ e, decode op = .error e)

/-- A running machine's step raises `OutOfBounds` in exactly the six cases of R151; the last, a key index above 15, is the spec's
decision D6 (spec/60_exceptions.md R151; log entry 9). -/
def Obligations.OutOfBoundsHasSixCauses : Prop :=
  ∀ s : State, s.latch = .running →
    ((∃ t r, step s = .next t ∧ t.faultRec = some r ∧ r.kind = .outOfBounds) ↔
      4095 ≤ s.pc.toNat ∨
      (∃ x y n, s.fetchInstr = .ok (.drwVxVyNibble x y n) ∧ n ≥ 1 ∧ s.i.toNat + n - 1 ≥ 4096) ∨
      (∃ x, s.fetchInstr = .ok (.ldBVx x) ∧ s.i.toNat + 2 ≥ 4096) ∨
      (∃ x, s.fetchInstr = .ok (.ldMemVx x) ∧ s.i.toNat + x.val ≥ 4096) ∨
      (∃ x, s.fetchInstr = .ok (.ldVxMem x) ∧ s.i.toNat + x.val ≥ 4096) ∨
      (∃ x, (s.fetchInstr = .ok (.skpVx x) ∨ s.fetchInstr = .ok (.sknpVx x)) ∧ (s.reg x).toNat ≥ 16))

/-- Every instruction, and every step, answers a next state: no meaning ends in a refusal or outside the fault latch
(spec/40_flow.md R80: a step executes one instruction or raises one fault; log entry 7). -/
def Obligations.EveryInstructionAndStepAnswersNext : Prop :=
  (∀ (i : Instr) (s : State), ∃ t, exec i s = .next t) ∧ (∀ s : State, ∃ t, step s = .next t)

/-- A halted machine's step changes nothing and reports the same record (spec/60_exceptions.md R156; decision D3,
log entry 7). -/
def Obligations.HaltedStepReportsTheRecordAgain : Prop :=
  ∀ (s : State) (r : FaultRecord), s.latch = .halted r → step s = .next s ∧ stepReport s = .fault r

/-- Without an `init`, a halted machine stays halted with its record under every sequence of events, which change only timers, keys
and `dirty` (spec/60_exceptions.md R156, R157; decision D3, log entry 7). -/
def Obligations.HaltIsPermanentUntilInit : Prop :=
  ∀ (font : Config.FontTable) (es : List Event) (s : State) (r : FaultRecord),
    (∀ e ∈ es, ∀ rom, e ≠ .init rom) → s.latch = .halted r →
    ∃ t, runEvents font es (.living s) = .living t ∧ t.latch = .halted r ∧ s.SameBut t [.dt, .st, .key, .dirty]

/-- A run without an `init` is safe exactly when it ends in a machine that is not halted: no halt goes unseen
(spec/60_exceptions.md R156; decision D3, log entry 7). -/
def Obligations.SafeRunsAreThoseThatEndRunning : Prop :=
  ∀ (font : Config.FontTable) (es : List Event) (s : State), (∀ e ∈ es, ∀ rom, e ≠ .init rom) →
    (SafeRun font es s ↔ ∃ t, runEvents font es (.living s) = .living t ∧ t.halted = false)

/-- A word placed for the host runs as the very next step (the model's own interface, log entry 17). -/
def Obligations.PlacedWordIsTheNextInstruction : Prop :=
  ∀ (s : State) (w : Nat) (i : Instr), s.mem.wf = true → decodeTableWord 16 w = some i →
    step (s.withFetchWord 16 w) = exec i (s.withFetchWord 16 w)

/-! ### Invariants -/

/-- The invariant holds at reset (spec/10_state.md R33; the reset values of `I` and `SP` are D1's, log entry 1; the canonical form is
the model's own, log entry 3; no record is latched). -/
def Obligations.ResetMeetsTheInvariant : Prop := State.reset.Inv

/-- Every step keeps the invariant: `I < 4096`, `PC <= 0x10FE`, held return addresses 2 to 4096 (spec/10_state.md R33, R14, R16);
memory's canonical form, which is the model's own (log entry 3); and a latched record that names `PC` and its word, which is
decisions D2 and D4 (spec/60_exceptions.md R155, R172; log entries 6, 7). -/
def Obligations.StepKeepsTheInvariant : Prop :=
  ∀ s t : State, s.Inv → step s = .next t → t.Inv

/-- `tick`, `set_key` and `present` keep the invariant, and every machine `init` makes meets it, whatever its font
(spec/10_state.md R33; the canonical form is the model's own, log entry 3; the record's clause is D2, D4, log entries 6, 7). -/
def Obligations.HostEventsKeepTheInvariant : Prop :=
  (∀ s : State, s.Inv → s.tick.Inv ∧ s.present.Inv ∧ ∀ k p, (s.setKey k p).Inv) ∧
  (∀ (font : Config.FontTable) (rom : List Byte) (s : State), State.init font rom = .ok s → s.Inv)

/-- Every machine reached from no machine by any sequence of events meets the invariant, whatever the font and the position of the
random source (spec/10_state.md R33; the canonical form is the model's own, log entry 3; the record's clause is D2, D4, log
entries 6, 7). -/
def Obligations.EventSequencesMeetTheInvariant : Prop :=
  ∀ (font : Config.FontTable) (es : List Event) (d : Nat) (t : State), runEvents font es (.absent d) = .living t → t.Inv

/-! ### Memory -/

/-- Byte reads and writes: they fail exactly at 4096 and above; a written byte is read back, and every other byte reads as before
(spec/20_memory.md R41, R43, R47). -/
def Obligations.WrittenBytesReadBack : Prop :=
  ∀ (s : State) (a : Nat) (b : Byte), s.mem.wf = true →
    (memReadByte s a = none ↔ a ≥ 4096) ∧ (memWriteByte s a b = none ↔ a ≥ 4096) ∧
    (∀ t, memWriteByte s a b = some t →
      t.mem.wf = true ∧ (∀ c, memReadByte t c = if c = a then some b else memReadByte s c) ∧ s.SameBut t [.mem])

/-- The stores of one instruction are byte writes at consecutive addresses, all of them or, out of range, none
(spec/20_memory.md R43, R44; decision D2, log entry 6). -/
def Obligations.StoresAreByteWritesInSequence : Prop :=
  ∀ (s : State) (a : Nat) (bs : List Byte),
    (bs.length = 0 ∨ a + bs.length ≤ 4096 →
      memWriteBytes s a bs = bs.zipIdx.foldlM (fun t p => memWriteByte t (a + p.2) p.1) s) ∧
    (bs.length ≥ 1 → a + bs.length > 4096 → memWriteBytes s a bs = none)

/-! ### Control transfer -/

/-- `1nnn` sets `PC` to `nnn` and changes nothing else (spec/40_flow.md R83). -/
def Obligations.JumpSetsPc : Prop :=
  ∀ (nnn : BitVec 12) (s : State),
    decode (BitVec.ofNat 16 (0x1000 + nnn.toNat)) = .ok (.jpAddr nnn) ∧
    exec (.jpAddr nnn) s = .next { s with pc := BitVec.ofNat 16 nnn.toNat }

/-- `Bnnn` sets `PC` to the unreduced sum of `V[0]` and `nnn` and changes nothing else (spec/40_flow.md R90; decision D11,
log entry 12). -/
def Obligations.IndexedJumpAddsV0 : Prop :=
  ∀ (nnn : BitVec 12) (s : State),
    decode (BitVec.ofNat 16 (0xB000 + nnn.toNat)) = .ok (.jpV0Addr nnn) ∧
    ∃ t, exec (.jpV0Addr nnn) s = .next t ∧ t.pc.toNat = (s.reg 0).toNat + nnn.toNat ∧ s.SameBut t [.pc]

/-- `3xkk`, `4xkk`, `5xy0`, `9xy0` compare bytes for equality and skip two bytes or none; nothing but `PC` changes; a nonzero low
nibble of the register forms is illegal (spec/40_flow.md R86 to R89). -/
def Obligations.SkipsCompareBytes : Prop :=
  ∀ (x y : Reg) (kk : Byte) (s : State),
    (decode (BitVec.ofNat 16 (0x3000 + 0x100 * x.val + kk.toNat)) = .ok (.seVxByte x kk) ∧
      exec (.seVxByte x kk) s = .next { s with pc := if s.reg x = kk then s.pc + 4 else s.pc + 2 }) ∧
    (decode (BitVec.ofNat 16 (0x4000 + 0x100 * x.val + kk.toNat)) = .ok (.sneVxByte x kk) ∧
      exec (.sneVxByte x kk) s = .next { s with pc := if s.reg x ≠ kk then s.pc + 4 else s.pc + 2 }) ∧
    (decode (BitVec.ofNat 16 (0x5000 + 0x100 * x.val + 0x10 * y.val)) = .ok (.seVxVy x y) ∧
      exec (.seVxVy x y) s = .next { s with pc := if s.reg x = s.reg y then s.pc + 4 else s.pc + 2 }) ∧
    (decode (BitVec.ofNat 16 (0x9000 + 0x100 * x.val + 0x10 * y.val)) = .ok (.sneVxVy x y) ∧
      exec (.sneVxVy x y) s = .next { s with pc := if s.reg x ≠ s.reg y then s.pc + 4 else s.pc + 2 }) ∧
    (∀ n, 1 ≤ n → n < 16 →
      (∃ r, decode (BitVec.ofNat 16 (0x5000 + 0x100 * x.val + 0x10 * y.val + n)) = .error r) ∧
      (∃ r, decode (BitVec.ofNat 16 (0x9000 + 0x100 * x.val + 0x10 * y.val + n)) = .error r))

/-- `00EE`: the newest entry becomes `PC` and the count falls by one; with an empty stack, `StackUnderflow` is taken and nothing but
the latch changes (spec/40_flow.md R82; decision D2, log entry 6). -/
def Obligations.ReturnPopsTheStack : Prop :=
  ∀ s : State,
    (∀ h : 0 < s.sp.val, ∃ t, exec .ret s = .next t ∧ t.pc = s.stack[s.sp.val - 1]'(by omega) ∧
      t.sp.val = s.sp.val - 1 ∧ s.SameBut t [.pc, .sp]) ∧
    (s.sp.val = 0 → exec .ret s = .next { s with latch := .halted ⟨.stackUnderflow, s.fetchWord, s.pc⟩ })

/-- `2nnn`: `pc0 + 2` is pushed and `PC` becomes `nnn`; with 16 entries held, `StackOverflow` is taken and nothing but the latch
changes (spec/40_flow.md R84; decision D2, log entry 6). -/
def Obligations.CallPushesTheReturnAddress : Prop :=
  ∀ (nnn : BitVec 12) (s : State),
    (∀ h : s.sp.val < 16, ∃ t, exec (.callAddr nnn) s = .next t ∧ t.pc = BitVec.ofNat 16 nnn.toNat ∧
      t.sp.val = s.sp.val + 1 ∧ t.stack[s.sp.val] = s.pc + 2 ∧
      (∀ j : Fin 16, j.val ≠ s.sp.val → t.stack[j.val] = s.stack[j.val]) ∧ s.SameBut t [.pc, .sp, .stack]) ∧
    (s.sp.val = 16 →
      exec (.callAddr nnn) s = .next { s with latch := .halted ⟨.stackOverflow, s.fetchWord, s.pc⟩ })

/-- A call and the return after it come back to the instruction after the call with the same entries held
(spec/40_flow.md R82, R84). -/
def Obligations.ReturnUndoesCall : Prop :=
  ∀ (nnn : BitVec 12) (s : State), s.sp.val < 16 →
    ∃ t u, exec (.callAddr nnn) s = .next t ∧ exec .ret t = .next u ∧ u.pc = s.pc + 2 ∧ u.sp = s.sp ∧
      (∀ j : Fin 16, j.val < s.sp.val → u.stack[j.val] = s.stack[j.val]) ∧ s.SameBut u [.pc, .stack]

/-! ### Load, arithmetic, logic, shift, random -/

/-- `6xkk` and `7xkk` write `V[x]` alone, for every `x`, VF included; the sum wraps and sets no flag (spec/41_alu.md R100, R101). -/
def Obligations.ImmediateLoadAndAdd : Prop :=
  ∀ (x : Reg) (kk : Byte) (s : State),
    (decode (BitVec.ofNat 16 (0x6000 + 0x100 * x.val + kk.toNat)) = .ok (.ldVxByte x kk) ∧
      ∃ t, exec (.ldVxByte x kk) s = .next t ∧ t.reg x = kk ∧
        s.RegsBut t [x] ∧ t.pc = s.pc + 2 ∧ s.SameBut t [.regs, .pc]) ∧
    (decode (BitVec.ofNat 16 (0x7000 + 0x100 * x.val + kk.toNat)) = .ok (.addVxByte x kk) ∧
      ∃ t, exec (.addVxByte x kk) s = .next t ∧ (t.reg x).toNat = ((s.reg x).toNat + kk.toNat) % 256 ∧
        s.RegsBut t [x] ∧ t.pc = s.pc + 2 ∧ s.SameBut t [.regs, .pc])

/-- `8xy0` to `8xy3` write the copy, OR, AND, XOR to `V[x]` alone; VF is not written as a flag
(spec/41_alu.md R102, R103, R104, R112). -/
def Obligations.CopyAndLogicWriteOneRegister : Prop :=
  ∀ (x y : Reg) (s : State),
    (decode (BitVec.ofNat 16 (0x8000 + 0x100 * x.val + 0x10 * y.val)) = .ok (.ldVxVy x y) ∧
      ∃ t, exec (.ldVxVy x y) s = .next t ∧ t.reg x = s.reg y ∧
        s.RegsBut t [x] ∧ t.pc = s.pc + 2 ∧ s.SameBut t [.regs, .pc]) ∧
    (decode (BitVec.ofNat 16 (0x8001 + 0x100 * x.val + 0x10 * y.val)) = .ok (.orVxVy x y) ∧
      ∃ t, exec (.orVxVy x y) s = .next t ∧
        (∀ k, (t.reg x).getLsbD k = ((s.reg x).getLsbD k || (s.reg y).getLsbD k)) ∧
        s.RegsBut t [x] ∧ t.pc = s.pc + 2 ∧ s.SameBut t [.regs, .pc]) ∧
    (decode (BitVec.ofNat 16 (0x8002 + 0x100 * x.val + 0x10 * y.val)) = .ok (.andVxVy x y) ∧
      ∃ t, exec (.andVxVy x y) s = .next t ∧
        (∀ k, (t.reg x).getLsbD k = ((s.reg x).getLsbD k && (s.reg y).getLsbD k)) ∧
        s.RegsBut t [x] ∧ t.pc = s.pc + 2 ∧ s.SameBut t [.regs, .pc]) ∧
    (decode (BitVec.ofNat 16 (0x8003 + 0x100 * x.val + 0x10 * y.val)) = .ok (.xorVxVy x y) ∧
      ∃ t, exec (.xorVxVy x y) s = .next t ∧
        (∀ k, (t.reg x).getLsbD k = ((s.reg x).getLsbD k != (s.reg y).getLsbD k)) ∧
        s.RegsBut t [x] ∧ t.pc = s.pc + 2 ∧ s.SameBut t [.regs, .pc])

/-- `8xy4`: VF is the carry and, unless `x` is F, `V[x]` the sum modulo 256, from the old values of both registers; with `x` = F the
flag is what VF holds (spec/41_alu.md R106; the order is decision D5, log entry 8). -/
def Obligations.AddSetsCarry : Prop :=
  ∀ (x y : Reg) (s : State),
    decode (BitVec.ofNat 16 (0x8004 + 0x100 * x.val + 0x10 * y.val)) = .ok (.addVxVy x y) ∧
    ∃ t, exec (.addVxVy x y) s = .next t ∧
      t.reg 15 = (if (s.reg x).toNat + (s.reg y).toNat > 255 then 0x01 else 0x00) ∧
      (x ≠ 15 → (t.reg x).toNat = ((s.reg x).toNat + (s.reg y).toNat) % 256) ∧
      s.RegsBut t [x, 15] ∧ t.pc = s.pc + 2 ∧ s.SameBut t [.regs, .pc]

/-- `8xy5` and `8xy7`: VF is NOT borrow, equality included, and, unless `x` is F, `V[x]` the difference modulo 256, from the old
values (spec/41_alu.md R107, R109; the order is decision D5, log entry 8; that function nibble 7 is SUBN is spec/30_encoding.md R65's
reading of the list order, N6, DEDUCED, log entry 20). -/
def Obligations.SubtractSetsNotBorrow : Prop :=
  ∀ (x y : Reg) (s : State),
    (decode (BitVec.ofNat 16 (0x8005 + 0x100 * x.val + 0x10 * y.val)) = .ok (.subVxVy x y) ∧
      ∃ t, exec (.subVxVy x y) s = .next t ∧
        t.reg 15 = (if (s.reg x).toNat ≥ (s.reg y).toNat then 0x01 else 0x00) ∧
        (x ≠ 15 → ((t.reg x).toNat : Int) = ((s.reg x).toNat - (s.reg y).toNat : Int) % 256) ∧
        s.RegsBut t [x, 15] ∧ t.pc = s.pc + 2 ∧ s.SameBut t [.regs, .pc]) ∧
    (decode (BitVec.ofNat 16 (0x8007 + 0x100 * x.val + 0x10 * y.val)) = .ok (.subnVxVy x y) ∧
      ∃ t, exec (.subnVxVy x y) s = .next t ∧
        t.reg 15 = (if (s.reg y).toNat ≥ (s.reg x).toNat then 0x01 else 0x00) ∧
        (x ≠ 15 → ((t.reg x).toNat : Int) = ((s.reg y).toNat - (s.reg x).toNat : Int) % 256) ∧
        s.RegsBut t [x, 15] ∧ t.pc = s.pc + 2 ∧ s.SameBut t [.regs, .pc])

/-- `8xy6` and `8xyE`: VF is the lost bit and, unless `x` is F, `V[x]` is shifted by one place; `V[y]` plays no part
(spec/41_alu.md R108, R110; the order is decision D5, log entry 8; that function nibble E is SHL is spec/30_encoding.md R65's reading
of the list order, N6, DEDUCED, log entry 20). -/
def Obligations.ShiftsSaveTheLostBit : Prop :=
  ∀ (x y : Reg) (s : State),
    (decode (BitVec.ofNat 16 (0x8006 + 0x100 * x.val + 0x10 * y.val)) = .ok (.shrVx x y) ∧
      ∃ t, exec (.shrVx x y) s = .next t ∧ (t.reg 15).toNat = (s.reg x).toNat % 2 ∧
        (x ≠ 15 → (t.reg x).toNat = (s.reg x).toNat / 2) ∧
        s.RegsBut t [x, 15] ∧ t.pc = s.pc + 2 ∧ s.SameBut t [.regs, .pc]) ∧
    (decode (BitVec.ofNat 16 (0x800E + 0x100 * x.val + 0x10 * y.val)) = .ok (.shlVx x y) ∧
      ∃ t, exec (.shlVx x y) s = .next t ∧ (t.reg 15).toNat = (s.reg x).toNat / 128 ∧
        (x ≠ 15 → (t.reg x).toNat = 2 * (s.reg x).toNat % 256) ∧
        s.RegsBut t [x, 15] ∧ t.pc = s.pc + 2 ∧ s.SameBut t [.regs, .pc])

/-- `Cxkk`: `V[x]` is the next random byte, whatever it is, masked with `kk`, and exactly one draw is consumed; and no event, a
failed `init` among them, rewinds the random source: its position moves only by a step that runs `Cxkk`, and by one
(spec/41_alu.md R111; the free value is decision D16; the position and its outliving a machine are the model's own,
log entry 5). -/
def Obligations.RandomByteIsMasked : Prop :=
  (∀ (font : Config.FontTable) (e : Event) (m : Session), (e.apply font m).draws = m.draws ∨
    ((e.apply font m).draws = m.draws + 1 ∧ ∃ s x kk, e = .step ∧ m = .living s ∧ s.Runs (.rndVxByte x kk))) ∧
  ∀ (x : Reg) (kk : Byte) (s : State),
    decode (BitVec.ofNat 16 (0xC000 + 0x100 * x.val + kk.toNat)) = .ok (.rndVxByte x kk) ∧
    ∃ t, exec (.rndVxByte x kk) s = .next t ∧ t.reg x = Config.randomByte s.draws &&& kk ∧
      (∀ k, kk.getLsbD k = false → (t.reg x).getLsbD k = false) ∧ t.draws = s.draws + 1 ∧
      s.RegsBut t [x] ∧ t.pc = s.pc + 2 ∧ s.SameBut t [.regs, .pc, .draws]

/-! ### Address register and memory instructions -/

/-- `Annn` sets `I` to `nnn`; `Fx1E` adds `V[x]` to `I` modulo 4096; no flag and no register changes
(spec/42_index_memory.md R120, R121). -/
def Obligations.AddressRegisterIsSetAndAdded : Prop :=
  (∀ (nnn : BitVec 12) (s : State),
    decode (BitVec.ofNat 16 (0xA000 + nnn.toNat)) = .ok (.ldIAddr nnn) ∧
    ∃ t, exec (.ldIAddr nnn) s = .next t ∧ t.i.toNat = nnn.toNat ∧ t.pc = s.pc + 2 ∧ s.SameBut t [.index, .pc]) ∧
  (∀ (x : Reg) (s : State),
    decode (BitVec.ofNat 16 (0xF01E + 0x100 * x.val)) = .ok (.addIVx x) ∧
    ∃ t, exec (.addIVx x) s = .next t ∧ t.i.toNat = (s.i.toNat + (s.reg x).toNat) % 4096 ∧ t.pc = s.pc + 2 ∧
      s.SameBut t [.index, .pc])

/-- `Fx29` sets `I` to `V[x] * 5`, for every `V[x]`, unmasked (spec/42_index_memory.md R122; decision D7, log entry 10). -/
def Obligations.GlyphAddressIsFiveTimesVx : Prop :=
  ∀ (x : Reg) (s : State),
    decode (BitVec.ofNat 16 (0xF029 + 0x100 * x.val)) = .ok (.ldFVx x) ∧
    ∃ t, exec (.ldFVx x) s = .next t ∧ t.i.toNat = (s.reg x).toNat * 5 ∧ t.pc = s.pc + 2 ∧ s.SameBut t [.index, .pc]

/-- `Fx33` stores the hundreds, tens and units of `V[x]` at `I`, `I+1`, `I+2` and nothing else; if `I + 2` is 4096 or more,
`OutOfBounds` is taken and nothing but the latch changes (spec/42_index_memory.md R123; decision D2, log entry 6). -/
def Obligations.DecimalDigitsAreStored : Prop :=
  ∀ (x : Reg) (s : State),
    decode (BitVec.ofNat 16 (0xF033 + 0x100 * x.val)) = .ok (.ldBVx x) ∧
    (s.mem.wf = true → s.i.toNat + 2 < 4096 → ∃ t, exec (.ldBVx x) s = .next t ∧
      (t.mem.read s.i.toNat).toNat = (s.reg x).toNat / 100 ∧
      (t.mem.read (s.i.toNat + 1)).toNat = (s.reg x).toNat / 10 % 10 ∧
      (t.mem.read (s.i.toNat + 2)).toNat = (s.reg x).toNat % 10 ∧
      (∀ a, (a < s.i.toNat ∨ s.i.toNat + 2 < a) → t.mem.read a = s.mem.read a) ∧
      t.pc = s.pc + 2 ∧ s.SameBut t [.mem, .pc]) ∧
    (s.i.toNat + 2 ≥ 4096 → exec (.ldBVx x) s = .next { s with latch := .halted ⟨.outOfBounds, s.fetchWord, s.pc⟩ })

/-- `Fx55` stores `V[0]` to `V[x]`, inclusive, at `I` to `I + x` and nothing else, and leaves `I` and the registers; out of range,
`OutOfBounds` is taken and nothing but the latch changes (spec/42_index_memory.md R124; decisions D2, D8, log entries 6, 11). -/
def Obligations.RegistersAreStoredInclusive : Prop :=
  ∀ (x : Reg) (s : State),
    decode (BitVec.ofNat 16 (0xF055 + 0x100 * x.val)) = .ok (.ldMemVx x) ∧
    (s.mem.wf = true → s.i.toNat + x.val < 4096 → ∃ t, exec (.ldMemVx x) s = .next t ∧
      (∀ r : Reg, r ≤ x → t.mem.read (s.i.toNat + r.val) = s.reg r) ∧
      (∀ a, (a < s.i.toNat ∨ s.i.toNat + x.val < a) → t.mem.read a = s.mem.read a) ∧
      t.pc = s.pc + 2 ∧ s.SameBut t [.mem, .pc]) ∧
    (s.i.toNat + x.val ≥ 4096 →
      exec (.ldMemVx x) s = .next { s with latch := .halted ⟨.outOfBounds, s.fetchWord, s.pc⟩ })

/-- `Fx65` loads `V[0]` to `V[x]`, inclusive, from `I` to `I + x`, and leaves `I`, memory and the registers above `x`; out of range,
`OutOfBounds` is taken and nothing but the latch changes (spec/42_index_memory.md R125; decisions D2, D8, log entries 6, 11). -/
def Obligations.RegistersAreLoadedInclusive : Prop :=
  ∀ (x : Reg) (s : State),
    decode (BitVec.ofNat 16 (0xF065 + 0x100 * x.val)) = .ok (.ldVxMem x) ∧
    (s.i.toNat + x.val < 4096 → ∃ t, exec (.ldVxMem x) s = .next t ∧
      (∀ r : Reg, r ≤ x → t.reg r = s.mem.read (s.i.toNat + r.val)) ∧
      (∀ r : Reg, x < r → t.reg r = s.reg r) ∧ t.pc = s.pc + 2 ∧ s.SameBut t [.regs, .pc]) ∧
    (s.i.toNat + x.val ≥ 4096 →
      exec (.ldVxMem x) s = .next { s with latch := .halted ⟨.outOfBounds, s.fetchWord, s.pc⟩ })

/-- Storing `V[0]` to `V[x]` and later loading them from the same `I` and the same memory gives the stored registers back, whatever
else changed between (spec/42_index_memory.md R125, the source's round trip). -/
def Obligations.LoadAfterStoreRestoresRegisters : Prop :=
  ∀ (x : Reg) (s : State), s.mem.wf = true → s.i.toNat + x.val < 4096 →
    ∃ t, exec (.ldMemVx x) s = .next t ∧
      ∀ u : State, u.i = t.i → (∀ a, u.mem.read a = t.mem.read a) →
        ∃ w, exec (.ldVxMem x) u = .next w ∧ ∀ r : Reg, r ≤ x → w.reg r = s.reg r

/-! ### Display -/

/-- `00E0` turns every pixel off and sets `dirty`, whatever it was (spec/43_display.md R130). -/
def Obligations.ClearTurnsEveryPixelOff : Prop :=
  ∀ s : State, decode 0x00E0 = .ok .cls ∧
    ∃ t, exec .cls s = .next t ∧ (∀ px py, t.fb.pixel px py = false) ∧ t.dirty = true ∧ t.pc = s.pc + 2 ∧
      s.SameBut t [.fb, .dirty, .pc]

/-- `Dxyn`: every pixel that a 1 bit of the `n` rows at `I` lands on is toggled and no other; VF says whether one of them was on;
`dirty` is set if there is one; the coordinates are the old register values; out of range, `OutOfBounds` is taken and nothing but the
latch changes (spec/43_display.md R131, R132; decisions D2, D5, D9, log entries 4, 6, 8). -/
def Obligations.DrawTogglesTheCoveredPixels : Prop :=
  ∀ (x y : Reg) (n : Nat) (s : State), n < 16 →
    decode (BitVec.ofNat 16 (0xD000 + 0x100 * x.val + 0x10 * y.val + n)) = .ok (.drwVxVyNibble x y n) ∧
    (n = 0 ∨ s.i.toNat + n - 1 < 4096 → ∃ t, exec (.drwVxVyNibble x y n) s = .next t ∧
      let covers := SpriteCovers ((List.range n).map fun k => s.mem.read (s.i.toNat + k)) (s.reg x).toNat (s.reg y).toNat
      (∀ px < 64, ∀ py < 32, (covers px py → t.fb.pixel px py = !s.fb.pixel px py) ∧
        (¬ covers px py → t.fb.pixel px py = s.fb.pixel px py)) ∧
      ((∃ px < 64, ∃ py < 32, covers px py ∧ s.fb.pixel px py = true) → t.reg 15 = 0x01) ∧
      ((¬ ∃ px < 64, ∃ py < 32, covers px py ∧ s.fb.pixel px py = true) → t.reg 15 = 0x00) ∧
      (t.dirty = true ↔ s.dirty = true ∨ ∃ k < n, s.mem.read (s.i.toNat + k) ≠ 0) ∧
      s.RegsBut t [15] ∧ t.pc = s.pc + 2 ∧ s.SameBut t [.regs, .pc, .fb, .dirty]) ∧
    (n ≥ 1 → s.i.toNat + n - 1 ≥ 4096 →
      exec (.drwVxVyNibble x y n) s = .next { s with latch := .halted ⟨.outOfBounds, s.fetchWord, s.pc⟩ })

/-- Drawing is an involution: two identical draws in succession restore the pixels exactly, and the second reports a collision
exactly when the sprite has a 1 bit that was drawn on an unlit pixel (spec/43_display.md R133; bit order D9, log entry 4; that
`x` or `y` = F draws at the old VF is D5, log entry 8). -/
def Obligations.DrawingTwiceRestoresThePixels : Prop :=
  ∀ (x y : Reg) (n : Nat) (s : State), n < 16 → (n = 0 ∨ s.i.toNat + n - 1 < 4096) →
    ∃ t, exec (.drwVxVyNibble x y n) s = .next t ∧
      (t.reg x = s.reg x → t.reg y = s.reg y →
        ∃ u, exec (.drwVxVyNibble x y n) t = .next u ∧ u.fb = s.fb ∧
          (u.reg 15 = 0x01 ↔ ∃ k < n, ∃ j < 8, (s.mem.read (s.i.toNat + k)).getLsbD (7 - j) = true ∧
            s.fb.pixel ((s.reg x).toNat + j) ((s.reg y).toNat + k) = false))

/-- The number of lit pixels after a draw is `before + ones - 2 * hits` (spec/43_display.md R133; bit order D9, log entry 4; that
`x` or `y` = F draws at the old VF is D5, log entry 8). -/
def Obligations.DrawCountsLitPixels : Prop :=
  ∀ (x y : Reg) (n : Nat) (s : State), n < 16 → (n = 0 ∨ s.i.toNat + n - 1 < 4096) →
    ∃ t, exec (.drwVxVyNibble x y n) s = .next t ∧
      t.fb.lit + 2 * ((List.range n ×ˢ List.range 8).countP fun p =>
          (s.mem.read (s.i.toNat + p.1)).getLsbD (7 - p.2) && s.fb.pixel ((s.reg x).toNat + p.2) ((s.reg y).toNat + p.1)) =
        s.fb.lit + (List.range n ×ˢ List.range 8).countP fun p => (s.mem.read (s.i.toNat + p.1)).getLsbD (7 - p.2)

/-! ### Keypad and timers -/

/-- `Ex9E` and `ExA1` skip by the level of the key `V[x]`; an index above 15 takes `OutOfBounds` and changes nothing but the latch
(spec/44_keypad_timers.md R140 to R142; decisions D2, D6, log entries 6, 9). -/
def Obligations.KeySkipsTestTheLatch : Prop :=
  ∀ (x : Reg) (s : State),
    decode (BitVec.ofNat 16 (0xE09E + 0x100 * x.val)) = .ok (.skpVx x) ∧
    decode (BitVec.ofNat 16 (0xE0A1 + 0x100 * x.val)) = .ok (.sknpVx x) ∧
    (∀ h : (s.reg x).toNat < 16,
      exec (.skpVx x) s = .next { s with pc := if s.key[(s.reg x).toNat] = true then s.pc + 4 else s.pc + 2 } ∧
      exec (.sknpVx x) s = .next { s with pc := if s.key[(s.reg x).toNat] = false then s.pc + 4 else s.pc + 2 }) ∧
    ((s.reg x).toNat ≥ 16 →
      exec (.skpVx x) s = .next { s with latch := .halted ⟨.outOfBounds, s.fetchWord, s.pc⟩ } ∧
      exec (.sknpVx x) s = .next { s with latch := .halted ⟨.outOfBounds, s.fetchWord, s.pc⟩ })

/-- `Fx0A`: with no key pressed the state stays exactly as it is; otherwise `V[x]` is the lowest pressed key and execution goes on
(spec/44_keypad_timers.md R143). -/
def Obligations.WaitForKeyRetries : Prop :=
  ∀ (x : Reg) (s : State),
    decode (BitVec.ofNat 16 (0xF00A + 0x100 * x.val)) = .ok (.ldVxK x) ∧
    ((∀ k : Fin 16, s.key[k.val] = false) → exec (.ldVxK x) s = .next s) ∧
    (∀ k : Fin 16, s.key[k.val] = true → (∀ j : Fin 16, j < k → s.key[j.val] = false) →
      ∃ t, exec (.ldVxK x) s = .next t ∧ (t.reg x).toNat = k.val ∧
        s.RegsBut t [x] ∧ t.pc = s.pc + 2 ∧ s.SameBut t [.regs, .pc])

/-- `Fx07`, `Fx15`, `Fx18` move a byte between `V[x]` and a timer, unscaled (spec/44_keypad_timers.md R145, R146, R147). -/
def Obligations.TimerMovesAreUnscaled : Prop :=
  ∀ (x : Reg) (s : State),
    (decode (BitVec.ofNat 16 (0xF007 + 0x100 * x.val)) = .ok (.ldVxDt x) ∧
      ∃ t, exec (.ldVxDt x) s = .next t ∧ t.reg x = s.dt ∧
        s.RegsBut t [x] ∧ t.pc = s.pc + 2 ∧ s.SameBut t [.regs, .pc]) ∧
    (decode (BitVec.ofNat 16 (0xF015 + 0x100 * x.val)) = .ok (.ldDtVx x) ∧
      ∃ t, exec (.ldDtVx x) s = .next t ∧ t.dt = s.reg x ∧ t.pc = s.pc + 2 ∧ s.SameBut t [.dt, .pc]) ∧
    (decode (BitVec.ofNat 16 (0xF018 + 0x100 * x.val)) = .ok (.ldStVx x) ∧
      ∃ t, exec (.ldStVx x) s = .next t ∧ t.st = s.reg x ∧ t.pc = s.pc + 2 ∧ s.SameBut t [.st, .pc])

/-! ### Events, accessors, reset -/

/-- `tick` lowers each timer by one, floored at 0, and changes nothing else (spec/60_exceptions.md R162). -/
def Obligations.TickCountsBothTimersDown : Prop :=
  ∀ s : State, s.tick.dt.toNat = s.dt.toNat - 1 ∧ s.tick.st.toNat = s.st.toNat - 1 ∧ s.SameBut s.tick [.dt, .st]

/-- `set_key` sets one key to a level and nothing else; an index above 15 changes nothing (spec/60_exceptions.md R163; decision D15,
log entry 14). -/
def Obligations.SetKeySetsOneKey : Prop :=
  ∀ (s : State) (k : Nat) (p : Bool),
    (∀ h : k < 16, (s.setKey k p).key[k] = p ∧ (∀ j : Fin 16, j.val ≠ k → (s.setKey k p).key[j.val] = s.key[j.val]) ∧
      s.SameBut (s.setKey k p) [.key]) ∧
    (k ≥ 16 → s.setKey k p = s)

/-- `present` clears `dirty` and changes nothing else (spec/60_exceptions.md R164; decision D14, log entry 13). -/
def Obligations.PresentClearsDirtyAlone : Prop :=
  ∀ s : State, s.present.dirty = false ∧ s.SameBut s.present [.dirty]

/-- The result of a running machine's step: the record if it ended halted; otherwise `became_dirty`, which is 1 exactly when the step
executed `00E0` or a `Dxyn` with a 1 bit, and which is what the step added to `dirty` (spec/60_exceptions.md R160; decision D14,
log entry 13). -/
def Obligations.StepReportsFaultOrBecameDirty : Prop :=
  ∀ s t : State, s.latch = .running → step s = .next t →
    (∀ r, t.latch = .halted r → stepReport s = .fault r) ∧
    (t.latch = .running → ∃ b, stepReport s = .outcome b ∧ t.dirty = (s.dirty || b) ∧
      (b = true ↔ s.fetchInstr = .ok .cls ∨
        ∃ x y n, s.fetchInstr = .ok (.drwVxVyNibble x y n) ∧ ∃ k < n, s.mem.read (s.i.toNat + k) ≠ 0))

/-- `display_pixels` has 2048 elements and element `y*64 + x` is `fb[y][x]` (spec/60_exceptions.md R165; decision D23,
log entry 22). -/
def Obligations.DisplayPixelsAreRowMajor : Prop :=
  ∀ s : State, s.displayPixels.length = 2048 ∧
    ∀ px < 64, ∀ py < 32, s.displayPixels[py * 64 + px]? = some (s.fb.pixel px py)

/-- `init`: for every font, a ROM of at most 3584 bytes is loaded at 0x200 over cleared memory with the font at 0x000, everything else
is as at reset; a longer one gives `RomTooLarge` and no machine (spec/70_reset_and_hazards.md R180, spec/10_state.md R31; the values
of R30 are decision D1, log entry 1; `FONT_TABLE` is a parameter, D10, log entry 3). -/
def Obligations.InitLoadsTheRom : Prop :=
  ∀ (font : Config.FontTable) (rom : List Byte),
    (rom.length ≤ 3584 → ∃ s, State.init font rom = .ok s ∧
      (∀ k, ∀ h : k < rom.length, s.mem.read (0x200 + k) = rom[k]) ∧
      (∀ a, 80 ≤ a → (a < 0x200 ∨ 0x200 + rom.length ≤ a) → s.mem.read a = 0x00) ∧
      (∀ a : Fin 80, s.mem.read a.val = font[a.val]) ∧
      State.reset.SameBut s [.mem]) ∧
    (rom.length > 3584 → State.init font rom = .error .romTooLarge)

/-- The machine right after reset: `PC` is 0x200, the stack is empty, and registers, timers, pixels, keys and `dirty` are zero
(spec/10_state.md R30; all but `PC` and memory are decision D1, log entries 1, 2). -/
def Obligations.ResetStateIsAsTabled : Prop :=
  State.reset.pc = 0x0200 ∧ (∀ r, State.reset.reg r = 0x00) ∧ State.reset.i = 0x0000 ∧ State.reset.sp.val = 0 ∧
  State.reset.dt = 0x00 ∧ State.reset.st = 0x00 ∧ (∀ px py, State.reset.fb.pixel px py = false) ∧
  State.reset.dirty = false ∧ (∀ k : Fin 16, State.reset.key[k.val] = false) ∧ State.reset.halted = false ∧
  State.reset.faultRec = none ∧ (∀ a, 0x50 ≤ a → State.reset.mem.read a = 0x00)

/-! ### Rules of the whole machine -/

/-- No step changes a part of the state except by the instructions that write it: `DT` by `Fx15`, `ST` by `Fx18`, keys by none,
pixels and `dirty` by `00E0`, `Dxyn`, `I` by `Annn`, `Fx1E`, `Fx29`, memory by `Fx33`, `Fx55`, the call stack by `2nnn`, `00EE`
(spec/10_state.md R15, R18, R21, R22, R24, R25, R26). -/
def Obligations.OnlyTheirInstructionsChangeEachPart : Prop :=
  ∀ s t : State, step s = .next t →
    (t.dt ≠ s.dt → ∃ x, s.Runs (.ldDtVx x)) ∧
    (t.st ≠ s.st → ∃ x, s.Runs (.ldStVx x)) ∧
    t.key = s.key ∧
    (t.fb ≠ s.fb ∨ t.dirty ≠ s.dirty → s.Runs .cls ∨ ∃ x y n, s.Runs (.drwVxVyNibble x y n)) ∧
    (t.i ≠ s.i → (∃ nnn, s.Runs (.ldIAddr nnn)) ∨ (∃ x, s.Runs (.addIVx x)) ∨ (∃ x, s.Runs (.ldFVx x))) ∧
    ((∃ a, t.mem.read a ≠ s.mem.read a) → (∃ x, s.Runs (.ldBVx x)) ∨ (∃ x, s.Runs (.ldMemVx x))) ∧
    (t.sp ≠ s.sp ∨ t.stack ≠ s.stack → s.Runs .ret ∨ ∃ nnn, s.Runs (.callAddr nnn)) ∧
    (t.draws ≠ s.draws → ∃ x kk, s.Runs (.rndVxByte x kk))

/-- A step changes a general register only if the instruction names it as a destination, loads it, or writes it as its flag VF
(spec/10_state.md R11, R12). -/
def Obligations.RegistersChangeOnlyAsTabled : Prop :=
  ∀ (s t : State) (r : Reg), step s = .next t → t.reg r ≠ s.reg r → ∃ i, s.Runs i ∧ WritesReg i r

/-- `PC` after a step that did not fault is `pc0 + 2`, or `pc0 + 4` after a skip, or the target of a jump, call or return, or `pc0`
for a waiting `Fx0A` (spec/10_state.md R13). -/
def Obligations.PcAfterAStep : Prop :=
  ∀ (s t : State) (i : Instr), s.Runs i → step s = .next t → t.latch = .running →
    match i with
    | .jpAddr nnn | .callAddr nnn => t.pc.toNat = nnn.toNat
    | .jpV0Addr nnn => t.pc.toNat = (s.reg 0).toNat + nnn.toNat
    | .ret => ∃ h : 0 < s.sp.val, t.pc = s.stack[s.sp.val - 1]'(by omega)
    | .seVxByte _ _ | .sneVxByte _ _ | .seVxVy _ _ | .sneVxVy _ _ | .skpVx _ | .sknpVx _ =>
      t.pc = s.pc + 2 ∨ t.pc = s.pc + 4
    | .ldVxK _ => t.pc = s.pc + 2 ∨ t = s
    | .cls | .ldVxByte _ _ | .addVxByte _ _ | .ldVxVy _ _ | .orVxVy _ _ | .andVxVy _ _ | .xorVxVy _ _ | .addVxVy _ _
    | .subVxVy _ _ | .shrVx _ _ | .subnVxVy _ _ | .shlVx _ _ | .ldIAddr _ | .rndVxByte _ _ | .drwVxVyNibble _ _ _
    | .ldVxDt _ | .ldDtVx _ | .ldStVx _ | .addIVx _ | .ldFVx _ | .ldBVx _ | .ldMemVx _ | .ldVxMem _ => t.pc = s.pc + 2

/-- A program cannot observe `ST` or `dirty`: two states that differ only in them step to states that differ only in them
(spec/10_state.md R29). -/
def Obligations.SoundTimerAndDirtyAreUnobservable : Prop :=
  ∀ (s t : State) (b : Byte) (d : Bool), step s = .next t →
    ∃ t', step { s with st := b, dirty := d } = .next t' ∧ t.SameBut t' [.st, .dirty]

/-- Nothing can observe a stale stack entry: two states with the same held entries step to states with the same held entries that
agree on everything else (spec/10_state.md R17; it is why the values of log entry 2 do not matter). -/
def Obligations.StaleStackEntriesAreUnobservable : Prop :=
  ∀ (s t : State) (stk : Vector Word 16), (∀ j : Fin 16, j.val < s.sp.val → stk[j.val] = s.stack[j.val]) →
    step s = .next t →
    ∃ t', step { s with stack := stk } = .next t' ∧ t.SameBut t' [.stack] ∧
      ∀ j : Fin 16, j.val < t.sp.val → t'.stack[j.val] = t.stack[j.val]
end

