-- ==== Sys2Proof/Laws/Decode.lean ====
section
/-! SUPPORT. The fields of a word as numbers, so that facts about encodings are linear arithmetic, and the words of bytes. -/

namespace Sys2Proof

theorem majorField_eq (op : Word) : majorField op = op.toNat / 4096 := by
  have := op.isLt
  simp only [majorField, BitVec.extractLsb'_toNat, Nat.shiftRight_eq_div_pow]
  omega

theorem xField_val (op : Word) : (xField op).val = op.toNat / 256 % 16 := by
  simp only [xField, BitVec.extractLsb'_toNat, Nat.shiftRight_eq_div_pow, BitVec.val_toFin]

theorem yField_val (op : Word) : (yField op).val = op.toNat / 16 % 16 := by
  simp only [yField, BitVec.extractLsb'_toNat, Nat.shiftRight_eq_div_pow, BitVec.val_toFin]

theorem nField_eq (op : Word) : nField op = op.toNat % 16 := by
  simp only [nField, BitVec.extractLsb'_toNat, Nat.shiftRight_zero]

theorem nField_lt (op : Word) : nField op < 16 := by rw [nField_eq]; omega

theorem kkField_toNat (op : Word) : (kkField op).toNat = op.toNat % 256 := by
  simp only [kkField, BitVec.extractLsb'_toNat, Nat.shiftRight_zero]

theorem nnnField_toNat (op : Word) : (nnnField op).toNat = op.toNat % 4096 := by
  simp only [nnnField, BitVec.extractLsb'_toNat, Nat.shiftRight_zero]

/-! ### Words of the formats as numbers -/

theorem wordA_toNat {base : Nat} (h : base ≤ 0xF000) (nnn : BitVec 12) : (wordA base nnn).toNat = base + nnn.toNat := by
  have := nnn.isLt
  simp only [wordA, BitVec.toNat_ofNat]; omega

theorem wordXK_toNat {base : Nat} (h : base ≤ 0xF000) (x : Reg) (kk : Byte) :
    (wordXK base x kk).toNat = base + 0x100 * x.val + kk.toNat := by
  have := kk.isLt
  simp only [wordXK, BitVec.toNat_ofNat]; omega

theorem wordXYN_toNat {base : Nat} (h : base ≤ 0xF000) (x y : Reg) (fn : Nat) :
    (wordXYN base x y fn).toNat = base + 0x100 * x.val + 0x10 * y.val + fn % 16 := by
  simp only [wordXYN, BitVec.toNat_ofNat]; omega

theorem wordXF_toNat {base fn : Nat} (h : base ≤ 0xF000) (hf : fn < 256) (x : Reg) :
    (wordXF base x fn).toNat = base + 0x100 * x.val + fn := by
  simp only [wordXF, BitVec.toNat_ofNat]; omega

/-! ### Bytes and words -/

theorem wordOfBytes_toNat (hi lo : Byte) : (wordOfBytes hi lo).toNat = hi.toNat * 256 + lo.toNat := by
  have := hi.isLt; have := lo.isLt
  simp only [wordOfBytes, BitVec.toNat_ofNat]; omega

/-- A word laid out in memory order and read back is the word. -/
theorem wordOfBytes_bytesOfWord (w : Word) : wordOfBytes (w.extractLsb' 8 8) (w.extractLsb' 0 8) = w := by
  have := w.isLt
  apply BitVec.eq_of_toNat_eq
  simp only [wordOfBytes_toNat, BitVec.extractLsb'_toNat, Nat.shiftRight_eq_div_pow]
  omega

/-- The decoder on a table word is the decoder on the word. -/
theorem decodeTableWord_eq (w : Nat) :
    decodeTableWord 16 w = (decode (BitVec.ofNat 16 w)).toOption := by
  have : BitVec.ofNat 16 (w % 2 ^ 16) = BitVec.ofNat 16 w := by
    apply BitVec.eq_of_toNat_eq
    simp
  simp only [decodeTableWord, bytesOfWord, decodeBytes, wordOfBytes_bytesOfWord, this]
  cases decode (BitVec.ofNat 16 w) <;> rfl

/-- The mask of the major opcode keeps the high nibble. -/
theorem and_major_mask (w : Word) : w &&& 0xF000 = BitVec.ofNat 16 (w.toNat / 4096 * 4096) := by
  apply BitVec.eq_of_getLsbD_eq
  intro i hi
  simp only [BitVec.getLsbD_and, BitVec.getLsbD_ofNat, hi, decide_true, Bool.true_and]
  rw [show (4096 : ℕ) = 2 ^ 12 by rfl, mul_comm, Nat.testBit_two_pow_mul, Nat.testBit_div_two_pow]
  interval_cases i <;> simp [BitVec.getLsbD] <;> exact fun _ => by decide

/-- A word is in a row of mask 0xF000 when its high nibble is the row's. -/
theorem and_major_mask_of_range {w : Word} {k : Nat} (hk : k * 4096 ≤ w.toNat) (hk' : w.toNat < (k + 1) * 4096) :
    w &&& 0xF000 = BitVec.ofNat 16 (k * 4096) := by
  rw [and_major_mask, show w.toNat / 4096 = k by omega]

end Sys2Proof
end

