-- ==== Sys2Proof/Laws/State.lean ====
section
/-! SUPPORT. One lemma per field per named update of the state, so that no proof unfolds a record update; the updates whose value
changes a field say what it becomes. -/

namespace Sys2Proof.Machine.State

variable (s : State)

/-! ### `setReg` -/

@[simp] theorem setReg_i (r : Reg) (b : Byte) : (s.setReg r b).i = s.i := rfl
@[simp] theorem setReg_pc (r : Reg) (b : Byte) : (s.setReg r b).pc = s.pc := rfl
@[simp] theorem setReg_sp (r : Reg) (b : Byte) : (s.setReg r b).sp = s.sp := rfl
@[simp] theorem setReg_stack (r : Reg) (b : Byte) : (s.setReg r b).stack = s.stack := rfl
@[simp] theorem setReg_dt (r : Reg) (b : Byte) : (s.setReg r b).dt = s.dt := rfl
@[simp] theorem setReg_st (r : Reg) (b : Byte) : (s.setReg r b).st = s.st := rfl
@[simp] theorem setReg_mem (r : Reg) (b : Byte) : (s.setReg r b).mem = s.mem := rfl
@[simp] theorem setReg_fb (r : Reg) (b : Byte) : (s.setReg r b).fb = s.fb := rfl
@[simp] theorem setReg_dirty (r : Reg) (b : Byte) : (s.setReg r b).dirty = s.dirty := rfl
@[simp] theorem setReg_key (r : Reg) (b : Byte) : (s.setReg r b).key = s.key := rfl
@[simp] theorem setReg_latch (r : Reg) (b : Byte) : (s.setReg r b).latch = s.latch := rfl
@[simp] theorem setReg_draws (r : Reg) (b : Byte) : (s.setReg r b).draws = s.draws := rfl

/-! ### `setFlag` -/

@[simp] theorem setFlag_i (c : Bool) : (s.setFlag c).i = s.i := rfl
@[simp] theorem setFlag_pc (c : Bool) : (s.setFlag c).pc = s.pc := rfl
@[simp] theorem setFlag_sp (c : Bool) : (s.setFlag c).sp = s.sp := rfl
@[simp] theorem setFlag_stack (c : Bool) : (s.setFlag c).stack = s.stack := rfl
@[simp] theorem setFlag_dt (c : Bool) : (s.setFlag c).dt = s.dt := rfl
@[simp] theorem setFlag_st (c : Bool) : (s.setFlag c).st = s.st := rfl
@[simp] theorem setFlag_mem (c : Bool) : (s.setFlag c).mem = s.mem := rfl
@[simp] theorem setFlag_fb (c : Bool) : (s.setFlag c).fb = s.fb := rfl
@[simp] theorem setFlag_dirty (c : Bool) : (s.setFlag c).dirty = s.dirty := rfl
@[simp] theorem setFlag_key (c : Bool) : (s.setFlag c).key = s.key := rfl
@[simp] theorem setFlag_latch (c : Bool) : (s.setFlag c).latch = s.latch := rfl
@[simp] theorem setFlag_draws (c : Bool) : (s.setFlag c).draws = s.draws := rfl

/-! ### `writeFlagged` -/

@[simp] theorem writeFlagged_i (r : Reg) (b : Byte) (c : Bool) : (s.writeFlagged r b c).i = s.i := rfl
@[simp] theorem writeFlagged_pc (r : Reg) (b : Byte) (c : Bool) : (s.writeFlagged r b c).pc = s.pc := rfl
@[simp] theorem writeFlagged_sp (r : Reg) (b : Byte) (c : Bool) : (s.writeFlagged r b c).sp = s.sp := rfl
@[simp] theorem writeFlagged_stack (r : Reg) (b : Byte) (c : Bool) : (s.writeFlagged r b c).stack = s.stack := rfl
@[simp] theorem writeFlagged_dt (r : Reg) (b : Byte) (c : Bool) : (s.writeFlagged r b c).dt = s.dt := rfl
@[simp] theorem writeFlagged_st (r : Reg) (b : Byte) (c : Bool) : (s.writeFlagged r b c).st = s.st := rfl
@[simp] theorem writeFlagged_mem (r : Reg) (b : Byte) (c : Bool) : (s.writeFlagged r b c).mem = s.mem := rfl
@[simp] theorem writeFlagged_fb (r : Reg) (b : Byte) (c : Bool) : (s.writeFlagged r b c).fb = s.fb := rfl
@[simp] theorem writeFlagged_dirty (r : Reg) (b : Byte) (c : Bool) : (s.writeFlagged r b c).dirty = s.dirty := rfl
@[simp] theorem writeFlagged_key (r : Reg) (b : Byte) (c : Bool) : (s.writeFlagged r b c).key = s.key := rfl
@[simp] theorem writeFlagged_latch (r : Reg) (b : Byte) (c : Bool) : (s.writeFlagged r b c).latch = s.latch := rfl
@[simp] theorem writeFlagged_draws (r : Reg) (b : Byte) (c : Bool) : (s.writeFlagged r b c).draws = s.draws := rfl

/-! ### `advance` -/

@[simp] theorem advance_v : (s.advance).v = s.v := rfl
@[simp] theorem advance_i : (s.advance).i = s.i := rfl
@[simp] theorem advance_pc : (s.advance).pc = s.pc + 2 := rfl
@[simp] theorem advance_sp : (s.advance).sp = s.sp := rfl
@[simp] theorem advance_stack : (s.advance).stack = s.stack := rfl
@[simp] theorem advance_dt : (s.advance).dt = s.dt := rfl
@[simp] theorem advance_st : (s.advance).st = s.st := rfl
@[simp] theorem advance_mem : (s.advance).mem = s.mem := rfl
@[simp] theorem advance_fb : (s.advance).fb = s.fb := rfl
@[simp] theorem advance_dirty : (s.advance).dirty = s.dirty := rfl
@[simp] theorem advance_key : (s.advance).key = s.key := rfl
@[simp] theorem advance_latch : (s.advance).latch = s.latch := rfl
@[simp] theorem advance_draws : (s.advance).draws = s.draws := rfl
@[simp] theorem advance_reg (r : Reg) : (s.advance).reg r = s.reg r := rfl

/-! ### `skipIf` -/

@[simp] theorem skipIf_v (c : Bool) : (s.skipIf c).v = s.v := rfl
@[simp] theorem skipIf_i (c : Bool) : (s.skipIf c).i = s.i := rfl
@[simp] theorem skipIf_pc (c : Bool) : (s.skipIf c).pc = if c then s.pc + 4 else s.pc + 2 := rfl
@[simp] theorem skipIf_sp (c : Bool) : (s.skipIf c).sp = s.sp := rfl
@[simp] theorem skipIf_stack (c : Bool) : (s.skipIf c).stack = s.stack := rfl
@[simp] theorem skipIf_dt (c : Bool) : (s.skipIf c).dt = s.dt := rfl
@[simp] theorem skipIf_st (c : Bool) : (s.skipIf c).st = s.st := rfl
@[simp] theorem skipIf_mem (c : Bool) : (s.skipIf c).mem = s.mem := rfl
@[simp] theorem skipIf_fb (c : Bool) : (s.skipIf c).fb = s.fb := rfl
@[simp] theorem skipIf_dirty (c : Bool) : (s.skipIf c).dirty = s.dirty := rfl
@[simp] theorem skipIf_key (c : Bool) : (s.skipIf c).key = s.key := rfl
@[simp] theorem skipIf_latch (c : Bool) : (s.skipIf c).latch = s.latch := rfl
@[simp] theorem skipIf_draws (c : Bool) : (s.skipIf c).draws = s.draws := rfl
@[simp] theorem skipIf_reg (c : Bool) (r : Reg) : (s.skipIf c).reg r = s.reg r := rfl

/-! ### `jump` -/

@[simp] theorem jump_v (a : Word) : (s.jump a).v = s.v := rfl
@[simp] theorem jump_i (a : Word) : (s.jump a).i = s.i := rfl
@[simp] theorem jump_pc (a : Word) : (s.jump a).pc = a := rfl
@[simp] theorem jump_sp (a : Word) : (s.jump a).sp = s.sp := rfl
@[simp] theorem jump_stack (a : Word) : (s.jump a).stack = s.stack := rfl
@[simp] theorem jump_dt (a : Word) : (s.jump a).dt = s.dt := rfl
@[simp] theorem jump_st (a : Word) : (s.jump a).st = s.st := rfl
@[simp] theorem jump_mem (a : Word) : (s.jump a).mem = s.mem := rfl
@[simp] theorem jump_fb (a : Word) : (s.jump a).fb = s.fb := rfl
@[simp] theorem jump_dirty (a : Word) : (s.jump a).dirty = s.dirty := rfl
@[simp] theorem jump_key (a : Word) : (s.jump a).key = s.key := rfl
@[simp] theorem jump_latch (a : Word) : (s.jump a).latch = s.latch := rfl
@[simp] theorem jump_draws (a : Word) : (s.jump a).draws = s.draws := rfl
@[simp] theorem jump_reg (a : Word) (r : Reg) : (s.jump a).reg r = s.reg r := rfl

/-! ### `takeFault` -/

@[simp] theorem takeFault_v (k : Fault) : (s.takeFault k).v = s.v := rfl
@[simp] theorem takeFault_i (k : Fault) : (s.takeFault k).i = s.i := rfl
@[simp] theorem takeFault_pc (k : Fault) : (s.takeFault k).pc = s.pc := rfl
@[simp] theorem takeFault_sp (k : Fault) : (s.takeFault k).sp = s.sp := rfl
@[simp] theorem takeFault_stack (k : Fault) : (s.takeFault k).stack = s.stack := rfl
@[simp] theorem takeFault_dt (k : Fault) : (s.takeFault k).dt = s.dt := rfl
@[simp] theorem takeFault_st (k : Fault) : (s.takeFault k).st = s.st := rfl
@[simp] theorem takeFault_mem (k : Fault) : (s.takeFault k).mem = s.mem := rfl
@[simp] theorem takeFault_fb (k : Fault) : (s.takeFault k).fb = s.fb := rfl
@[simp] theorem takeFault_dirty (k : Fault) : (s.takeFault k).dirty = s.dirty := rfl
@[simp] theorem takeFault_key (k : Fault) : (s.takeFault k).key = s.key := rfl
@[simp] theorem takeFault_latch (k : Fault) : (s.takeFault k).latch = .halted ⟨k, s.fetchWord, s.pc⟩ := rfl
@[simp] theorem takeFault_draws (k : Fault) : (s.takeFault k).draws = s.draws := rfl
@[simp] theorem takeFault_reg (k : Fault) (r : Reg) : (s.takeFault k).reg r = s.reg r := rfl

/-! ### `drawByte` and `setRegs` -/

theorem drawByte_eq : s.drawByte = (Config.randomByte s.draws, { s with draws := s.draws + 1 }) := rfl

/-! ### Registers -/

/-- Reading a register after writing one. -/
theorem setReg_reg (r q : Reg) (b : Byte) : (s.setReg r b).reg q = if q = r then b else s.reg q := by
  simp only [setReg, reg, Vector.getElem_set, Fin.ext_iff, eq_comm]

@[simp] theorem setReg_reg_self (r : Reg) (b : Byte) : (s.setReg r b).reg r = b := by simp [setReg_reg]

theorem setReg_reg_ne {r q : Reg} (b : Byte) (h : q ≠ r) : (s.setReg r b).reg q = s.reg q := by simp [setReg_reg, h]

/-- Reading a register after a result and a flag were written: the flag is written last. -/
theorem writeFlagged_reg (r q : Reg) (b : Byte) (c : Bool) :
    (s.writeFlagged r b c).reg q = if q = vf then flagByte c else if q = r then b else s.reg q := by
  simp only [writeFlagged, setFlag, setReg_reg]

theorem setFlag_reg (c : Bool) (q : Reg) : (s.setFlag c).reg q = if q = vf then flagByte c else s.reg q := by
  simp only [setFlag, setReg_reg]

/-- Registers decide the register file. -/
theorem v_ext {s t : State} (h : ∀ r, t.reg r = s.reg r) : t.v = s.v := by
  apply Vector.ext
  intro k hk
  exact h ⟨k, hk⟩

/-! ### Running and halted -/

theorem halted_eq_false_iff : s.halted = false ↔ s.latch = .running := by
  unfold halted faultRec
  cases s.latch <;> simp

theorem faultRec_eq_some_iff (r : FaultRecord) : s.faultRec = some r ↔ s.latch = .halted r := by
  unfold faultRec
  cases s.latch <;> simp

end Sys2Proof.Machine.State
end

