-- ==== Sys2Proof/Laws/Display.lean ====
section
/-! SUPPORT. The pixel buffer and the sprite drawer: what one toggle, one row and a whole sprite do to every pixel, to `collision`
and to `changed`. -/

namespace Sys2Proof.Machine

@[simp] theorem Screen.pixel_mod (fb : Screen) (px py : Nat) : fb.pixel (px % 64) (py % 32) = fb.pixel px py := by
  simp [Screen.pixel]

@[simp] theorem Screen.pixel_blank (px py : Nat) : Screen.blank.pixel px py = false := by
  simp [Screen.pixel, Screen.blank]

/-- A toggle changes one pixel, the one its wrapped coordinates name. -/
theorem Screen.pixel_toggle (fb : Screen) (px py qx qy : Nat) :
    (fb.toggle px py).pixel qx qy =
      if qx % 64 = px % 64 ∧ qy % 32 = py % 32 then !fb.pixel px py else fb.pixel qx qy := by
  by_cases hy : qy % 32 = py % 32
  · by_cases hx : qx % 64 = px % 64
    · simp [Screen.pixel, Screen.toggle, hy, hx]
    · have hx' : px % 64 ≠ qx % 64 := Ne.symm hx
      simp [Screen.pixel, Screen.toggle, hy, hx, hx']
  · have hy' : py % 32 ≠ qy % 32 := Ne.symm hy
    simp [Screen.pixel, Screen.toggle, hy, hy']

/-- Pixels decide the buffer. -/
theorem Screen.ext_pixel {fb gb : Screen} (h : ∀ px < 64, ∀ py < 32, fb.pixel px py = gb.pixel px py) : fb = gb := by
  apply Vector.ext
  intro y hy
  apply Vector.ext
  intro x hx
  have := h x hx y hy
  simpa [Screen.pixel, Nat.mod_eq_of_lt hx, Nat.mod_eq_of_lt hy] using this

/-- One of the first `k` bits of a row, drawn from column `xo` of row `y`, lands on the pixel. -/
def RowHits (row : Byte) (xo y k px py : Nat) : Prop :=
  ∃ j < k, spriteBit row j = true ∧ px % 64 = (xo + j) % 64 ∧ py % 32 = y % 32

theorem plot_true (c : Canvas) (px py : Nat) :
    c.plot true px py = ⟨c.fb.toggle px py, c.collision || c.fb.pixel px py, true⟩ := rfl

@[simp] theorem plot_false (c : Canvas) (px py : Nat) : c.plot false px py = c := rfl

/-- The first `k` bits of a row. -/
def Canvas.plotBits (c : Canvas) (xo py : Nat) (row : Byte) (k : Nat) : Canvas :=
  (List.range k).foldl (fun c j => c.plot (spriteBit row j) (xo + j) py) c

theorem plotBits_succ (c : Canvas) (xo py : Nat) (row : Byte) (k : Nat) :
    c.plotBits xo py row (k + 1) = (c.plotBits xo py row k).plot (spriteBit row k) (xo + k) py := by
  simp [Canvas.plotBits, List.range_succ]

theorem rowHits_succ {row : Byte} {xo y k px py : Nat} :
    RowHits row xo y (k + 1) px py ↔
      RowHits row xo y k px py ∨ (spriteBit row k = true ∧ px % 64 = (xo + k) % 64 ∧ py % 32 = y % 32) := by
  unfold RowHits
  constructor
  · rintro ⟨j, hj, h⟩
    rcases Nat.lt_succ_iff_lt_or_eq.1 hj with hj | rfl
    · exact .inl ⟨j, hj, h⟩
    · exact .inr h
  · rintro (⟨j, hj, h⟩ | h)
    · exact ⟨j, by omega, h⟩
    · exact ⟨k, by omega, h⟩

/-- The target of a bit is not the target of an earlier bit of the row. -/
theorem not_rowHits_self {row : Byte} {xo y k : Nat} (hk : k < 64) : ¬ RowHits row xo y k (xo + k) y := by
  rintro ⟨j, hj, -, h, -⟩
  omega

/-- What the first bits of a row do. -/
theorem plotBits_spec (c : Canvas) (xo y : Nat) (row : Byte) : ∀ k ≤ 64,
    (∀ px py, RowHits row xo y k px py → (c.plotBits xo y row k).fb.pixel px py = !c.fb.pixel px py) ∧
    (∀ px py, ¬ RowHits row xo y k px py → (c.plotBits xo y row k).fb.pixel px py = c.fb.pixel px py) ∧
    ((c.plotBits xo y row k).collision = true ↔
      c.collision = true ∨ ∃ j < k, spriteBit row j = true ∧ c.fb.pixel (xo + j) y = true) ∧
    ((c.plotBits xo y row k).changed = true ↔ c.changed = true ∨ ∃ j < k, spriteBit row j = true)
  | 0, _ => by simp [Canvas.plotBits, RowHits]
  | k + 1, hk => by
    obtain ⟨h1, h2, h3, h4⟩ := plotBits_spec c xo y row k (by omega)
    rw [plotBits_succ]
    have hself := h2 _ _ (not_rowHits_self (row := row) (xo := xo) (y := y) (k := k) (by omega))
    cases hb : spriteBit row k with
    | false =>
      simp only [plot_false, rowHits_succ, hb, Bool.false_eq_true, false_and, or_false]
      refine ⟨h1, h2, h3.trans (or_congr_right ?_), h4.trans (or_congr_right ?_)⟩
      · exact ⟨fun ⟨j, hj, h⟩ => ⟨j, by omega, h⟩, fun ⟨j, hj, h, h'⟩ =>
          ⟨j, by rcases Nat.lt_succ_iff_lt_or_eq.1 hj with hj | rfl; exacts [hj, by simp [hb] at h], h, h'⟩⟩
      · exact ⟨fun ⟨j, hj, h⟩ => ⟨j, by omega, h⟩, fun ⟨j, hj, h⟩ =>
          ⟨j, by rcases Nat.lt_succ_iff_lt_or_eq.1 hj with hj | rfl; exacts [hj, by simp [hb] at h], h⟩⟩
    | true =>
      simp only [plot_true, rowHits_succ, hb, true_and, Screen.pixel_toggle, Bool.or_eq_true, hself]
      refine ⟨fun px py h => ?_, fun px py h => ?_, ?_, ?_⟩
      · split
        · rename_i hq
          have : c.fb.pixel px py = c.fb.pixel (xo + k) y := by
            rw [← Screen.pixel_mod c.fb px, ← Screen.pixel_mod c.fb (xo + k), hq.1, hq.2]
          rw [this]
        · exact h1 px py (h.resolve_right ‹_›)
      · rw [not_or] at h
        rw [if_neg h.2, h2 px py h.1]
      · rw [h3, or_assoc]
        refine or_congr_right ⟨?_, ?_⟩
        · rintro (⟨j, hj, h⟩ | h)
          · exact ⟨j, by omega, h⟩
          · exact ⟨k, by omega, hb, h⟩
        · rintro ⟨j, hj, h⟩
          rcases Nat.lt_succ_iff_lt_or_eq.1 hj with hj | rfl
          · exact .inl ⟨j, hj, h⟩
          · exact .inr h.2
      · simp only [true_iff]
        exact .inr ⟨k, by omega, hb⟩

/-- One of the rows from row `yo` down lands on the pixel. -/
def RowsHit (rows : List Byte) (xo yo px py : Nat) : Prop :=
  ∃ k, ∃ h : k < rows.length, RowHits (rows[k]'h) xo (yo + k) 8 px py

theorem rowsHit_nil {xo yo px py : Nat} : ¬ RowsHit [] xo yo px py := by
  rintro ⟨k, h, -⟩
  exact absurd h (by simp)

theorem exists_getElem_cons {α : Type} {a : α} {l : List α} {p : Nat → α → Prop} :
    (∃ k, ∃ h : k < (a :: l).length, p k ((a :: l)[k]'h)) ↔
      p 0 a ∨ ∃ k, ∃ h : k < l.length, p (k + 1) (l[k]'h) := by
  constructor
  · rintro ⟨k, h, hp⟩
    cases k with
    | zero => exact .inl hp
    | succ k => exact .inr ⟨k, by simpa using h, by simpa using hp⟩
  · rintro (hp | ⟨k, h, hp⟩)
    · exact ⟨0, by simp, hp⟩
    · exact ⟨k + 1, by simpa using h, by simpa using hp⟩

theorem rowsHit_cons {row : Byte} {rows : List Byte} {xo yo px py : Nat} :
    RowsHit (row :: rows) xo yo px py ↔ RowHits row xo yo 8 px py ∨ RowsHit rows xo (yo + 1) px py := by
  unfold RowsHit
  rw [exists_getElem_cons (p := fun k (b : Byte) => RowHits b xo (yo + k) 8 px py)]
  simp only [Nat.add_zero, Nat.add_assoc, Nat.add_comm 1]

/-- What the whole sprite does: every pixel of its 1 bits is toggled once, every other pixel stays, `collision` says that some
toggled pixel was on, `changed` that some pixel was toggled. -/
theorem plotRows_spec (xo : Nat) : ∀ (rows : List Byte) (c : Canvas) (yo : Nat), rows.length ≤ 32 →
    (∀ px py, RowsHit rows xo yo px py → (c.plotRows xo yo rows).fb.pixel px py = !c.fb.pixel px py) ∧
    (∀ px py, ¬ RowsHit rows xo yo px py → (c.plotRows xo yo rows).fb.pixel px py = c.fb.pixel px py) ∧
    ((c.plotRows xo yo rows).collision = true ↔ c.collision = true ∨
      ∃ k, ∃ h : k < rows.length, ∃ j < 8, spriteBit (rows[k]'h) j = true ∧ c.fb.pixel (xo + j) (yo + k) = true) ∧
    ((c.plotRows xo yo rows).changed = true ↔ c.changed = true ∨
      ∃ k, ∃ h : k < rows.length, ∃ j < 8, spriteBit (rows[k]'h) j = true)
  | [], c, yo, _ => by simp [Canvas.plotRows, RowsHit]
  | row :: rows, c, yo, hlen => by
    simp only [List.length_cons] at hlen
    obtain ⟨r1, r2, r3, r4⟩ := plotBits_spec c xo yo row 8 (by omega)
    obtain ⟨h1, h2, h3, h4⟩ := plotRows_spec xo rows (c.plotRow xo yo row) (yo + 1) (by omega)
    have apart : ∀ px py, RowHits row xo yo 8 px py → ¬ RowsHit rows xo (yo + 1) px py := by
      rintro px py ⟨j, -, -, -, hy⟩ ⟨k, hk, j', -, -, -, hy'⟩
      omega
    have later : ∀ j k, k < rows.length → (c.plotRow xo yo row).fb.pixel (xo + j) (yo + 1 + k) = c.fb.pixel (xo + j) (yo + 1 + k) := by
      intro j k hk
      apply r2
      rintro ⟨j', -, -, -, hy⟩
      omega
    refine ⟨fun px py h => ?_, fun px py h => ?_, ?_, ?_⟩
    · rcases rowsHit_cons.1 h with h | h
      · rw [Canvas.plotRows, h2 _ _ (apart _ _ h)]
        exact r1 _ _ h
      · rw [Canvas.plotRows, h1 _ _ h]
        congr 1
        exact r2 _ _ fun h' => apart _ _ h' h
    · rw [rowsHit_cons, not_or] at h
      rw [Canvas.plotRows, h2 _ _ h.2]
      exact r2 _ _ h.1
    · rw [Canvas.plotRows, h3,
        exists_getElem_cons (p := fun k (b : Byte) => ∃ j < 8, spriteBit b j = true ∧ c.fb.pixel (xo + j) (yo + k) = true)]
      rw [← or_assoc]
      refine or_congr r3 ⟨?_, ?_⟩
      · rintro ⟨k, hk, j, hj, hb, hp⟩
        rw [later j k hk] at hp
        exact ⟨k, hk, j, hj, hb, by rwa [show yo + (k + 1) = yo + 1 + k by omega]⟩
      · rintro ⟨k, hk, j, hj, hb, hp⟩
        refine ⟨k, hk, j, hj, hb, ?_⟩
        rw [later j k hk]
        rwa [show yo + (k + 1) = yo + 1 + k by omega] at hp
    · rw [Canvas.plotRows, h4, exists_getElem_cons (p := fun _ (b : Byte) => ∃ j < 8, spriteBit b j = true), ← or_assoc]
      exact or_congr_left r4

/-- A pixel inside the buffer is hit exactly when the sprite covers it. -/
theorem rowsHit_iff_covers {rows : List Byte} {xo yo px py : Nat} (hx : px < 64) (hy : py < 32) :
    RowsHit rows xo yo px py ↔ SpriteCovers rows xo yo px py := by
  unfold RowsHit RowHits SpriteCovers
  rw [Nat.mod_eq_of_lt hx, Nat.mod_eq_of_lt hy]
  constructor
  · rintro ⟨k, hk, j, hj, hb, h1, h2⟩
    exact ⟨k, j, hk, hj, hb, h1, h2⟩
  · rintro ⟨k, j, hk, hj, hb, h1, h2⟩
    exact ⟨k, hk, j, hj, hb, h1, h2⟩

end Sys2Proof.Machine
end

