-- ==== Sys2Proof/Laws/Operands.lean ====
section
/-! SUPPORT. One lemma per operand form and per flag computation: its value as a number, so that proofs about instructions are linear
arithmetic. -/

namespace Sys2Proof.Machine

theorem addrOperand_toNat (nnn : BitVec 12) : (addrOperand nnn).toNat = nnn.toNat := by
  have := nnn.isLt
  simp only [addrOperand, BitVec.toNat_setWidth]; omega

theorem addrOperand_eq (nnn : BitVec 12) : addrOperand nnn = BitVec.ofNat 16 nnn.toNat := by
  have := nnn.isLt
  apply BitVec.eq_of_toNat_eq
  rw [addrOperand_toNat, BitVec.toNat_ofNat]; omega

theorem indexedTarget_toNat (v0 : Byte) (nnn : BitVec 12) : (indexedTarget v0 nnn).toNat = v0.toNat + nnn.toNat := by
  have := nnn.isLt; have := v0.isLt
  simp only [indexedTarget, BitVec.toNat_add, BitVec.toNat_setWidth]; omega

theorem indexSum_toNat (i : Word) (b : Byte) : (indexSum i b).toNat = (i.toNat + b.toNat) % 4096 := by
  simp only [indexSum, BitVec.toNat_ofNat]; omega

theorem glyphAddr_toNat (b : Byte) : (glyphAddr b).toNat = b.toNat * 5 := by
  have := b.isLt
  simp only [glyphAddr, Config.fontBase, Config.glyphBytes, BitVec.toNat_ofNat]; omega

@[simp] theorem decimalDigits_length (b : Byte) : (decimalDigits b).length = 3 := rfl

theorem hundreds_toNat (b : Byte) : (decimalDigits b)[0].toNat = b.toNat / 100 := by
  have := b.isLt
  simp only [decimalDigits, List.getElem_cons_zero, BitVec.toNat_ofNat]; omega

theorem tens_toNat (b : Byte) : (decimalDigits b)[1].toNat = b.toNat / 10 % 10 := by
  simp only [decimalDigits, List.getElem_cons_succ, List.getElem_cons_zero, BitVec.toNat_ofNat]; omega

theorem units_toNat (b : Byte) : (decimalDigits b)[2].toNat = b.toNat % 10 := by
  simp only [decimalDigits, List.getElem_cons_succ, List.getElem_cons_zero, BitVec.toNat_ofNat]; omega

/-- The bit order of a sprite row (spec/43_display.md R132). -/
theorem spriteBit_eq (row : Byte) (j : Nat) : spriteBit row j = row.getLsbD (7 - j) := rfl

/-! ### Flags -/

theorem flagByte_toNat (c : Bool) : (flagByte c).toNat = c.toNat := by cases c <;> rfl

theorem flagByte_carry (a b : Byte) :
    flagByte (carryFlag a b) = if a.toNat + b.toNat > 255 then 0x01 else 0x00 := by
  simp only [flagByte, carryFlag, decide_eq_true_eq]

theorem flagByte_notBorrow (a b : Byte) : flagByte (notBorrowFlag a b) = if a.toNat ≥ b.toNat then 0x01 else 0x00 := by
  simp only [flagByte, notBorrowFlag, decide_eq_true_eq]

theorem lowBitFlag_toNat (a : Byte) : (flagByte (lowBitFlag a)).toNat = a.toNat % 2 := by
  rw [flagByte_toNat, lowBitFlag, BitVec.getLsbD, Nat.testBit_zero]
  rcases Nat.mod_two_eq_zero_or_one a.toNat with h | h <;> simp [h]

theorem highBitFlag_toNat (a : Byte) : (flagByte (highBitFlag a)).toNat = a.toNat / 128 := by
  have := a.isLt
  rw [flagByte_toNat, highBitFlag, BitVec.getLsbD, Nat.testBit_eq_decide_div_mod_eq]
  by_cases h : a.toNat / 2 ^ 7 % 2 = 1
  · rw [decide_eq_true h, Bool.toNat_true]; omega
  · rw [decide_eq_false h, Bool.toNat_false]; omega

/-- A down-counter is floored at 0 (spec/60_exceptions.md R162). -/
theorem tickDown_toNat (b : Byte) : (tickDown b).toNat = b.toNat - 1 := by
  have := b.isLt
  unfold tickDown
  split
  · rw [BitVec.toNat_sub]; simp; omega
  · omega

end Sys2Proof.Machine
end

