-- ==== Sys2Proof/Laws/Memory.lean ====
section
/-! SUPPORT. Memory: a read after a write, and the canonical form, which every memory operation keeps and which makes equal
memories equal lists. -/

namespace Sys2Proof.Machine

/-! ### The canonical form above a bound -/

theorem Memory.wfFrom_cons {lo k : Nat} {b : Byte} {m : Memory} :
    Memory.wfFrom lo ((k, b) :: m) = true ↔
      lo ≤ k ∧ k < Config.memSize ∧ b ≠ resetByte k ∧ Memory.wfFrom (k + 1) m = true := by
  simp [Memory.wfFrom, and_assoc]

theorem Memory.wfFrom_mono {lo lo' : Nat} (h : lo' ≤ lo) : ∀ {m : Memory}, Memory.wfFrom lo m = true → Memory.wfFrom lo' m = true
  | [], _ => rfl
  | (k, b) :: m, hm => by
    rw [Memory.wfFrom_cons] at hm ⊢
    exact ⟨h.trans hm.1, hm.2⟩

/-- Below the bound nothing is listed. -/
theorem Memory.read_below {lo a : Nat} (h : a < lo) : ∀ {m : Memory}, Memory.wfFrom lo m = true → m.read a = resetByte a
  | [], _ => rfl
  | (k, b) :: m, hm => by
    rw [Memory.wfFrom_cons] at hm
    rw [Memory.read, if_neg (by omega)]
    exact Memory.read_below (by omega) hm.2.2.2

theorem Memory.wfFrom_consCell {lo a : Nat} {b : Byte} {m : Memory} (hlo : lo ≤ a) (ha : a < Config.memSize)
    (hm : Memory.wfFrom (a + 1) m = true) : Memory.wfFrom lo (Memory.consCell a b m) = true := by
  unfold Memory.consCell
  split
  · exact Memory.wfFrom_mono (by omega) hm
  · exact Memory.wfFrom_cons.2 ⟨hlo, ha, ‹_›, hm⟩

theorem Memory.read_consCell {lo a c : Nat} {b : Byte} {m : Memory} (hlo : a < lo) (hm : Memory.wfFrom lo m = true) :
    (Memory.consCell a b m).read c = if c = a then b else m.read c := by
  unfold Memory.consCell
  split
  · split
    · subst_vars; exact Memory.read_below hlo hm
    · rfl
  · rfl

theorem Memory.wfFrom_write {a : Nat} {b : Byte} (ha : a < Config.memSize) :
    ∀ {lo : Nat} {m : Memory}, lo ≤ a → Memory.wfFrom lo m = true → Memory.wfFrom lo (m.write a b) = true
  | lo, [], hlo, _ => Memory.wfFrom_consCell hlo ha rfl
  | lo, (k, c) :: m, hlo, hm => by
    have hk := Memory.wfFrom_cons.1 hm
    rw [Memory.write]
    split
    · exact Memory.wfFrom_consCell hlo ha (Memory.wfFrom_cons.2 ⟨by omega, hk.2⟩)
    · split
      · subst_vars; exact Memory.wfFrom_consCell hlo ha hk.2.2.2
      · exact Memory.wfFrom_cons.2 ⟨hk.1, hk.2.1, hk.2.2.1, Memory.wfFrom_write ha (by omega) hk.2.2.2⟩

theorem Memory.read_write_from {a c : Nat} {b : Byte} :
    ∀ {lo : Nat} {m : Memory}, Memory.wfFrom lo m = true → (m.write a b).read c = if c = a then b else m.read c
  | lo, [], _ => Memory.read_consCell (Nat.lt_succ_self a) rfl
  | lo, (k, d) :: m, hm => by
    have hk := Memory.wfFrom_cons.1 hm
    rw [Memory.write]
    split
    · exact Memory.read_consCell (lo := k) ‹_› (Memory.wfFrom_cons.2 ⟨le_rfl, hk.2⟩)
    · split
      · rename_i hak
        subst hak
        rw [Memory.read_consCell (Nat.lt_succ_self a) hk.2.2.2, Memory.read]
        split <;> rfl
      · rw [Memory.read, Memory.read, Memory.read_write_from hk.2.2.2]
        grind

/-! ### The spec of each operation -/

/-- A write keeps the canonical form. -/
theorem Memory.wf_write {m : Memory} {a : Nat} {b : Byte} (hm : m.wf = true) (ha : a < Config.memSize) :
    (m.write a b).wf = true := Memory.wfFrom_write ha (Nat.zero_le a) hm

/-- A read after a write. -/
theorem Memory.read_write {m : Memory} (hm : m.wf = true) (a c : Nat) (b : Byte) :
    (m.write a b).read c = if c = a then b else m.read c := Memory.read_write_from hm

/-- Writing consecutive bytes inside the address space keeps the canonical form. -/
theorem Memory.wf_writeBytes :
    ∀ {bs : List Byte} {m : Memory} {a : Nat}, m.wf = true → (bs ≠ [] → a + bs.length ≤ Config.memSize) →
      (m.writeBytes a bs).wf = true
  | [], _, _, hm, _ => hm
  | b :: bs, m, a, hm, h => by
    have h' := h (by simp)
    simp only [List.length_cons] at h'
    exact Memory.wf_writeBytes (m := m.write a b) (Memory.wf_write hm (by omega)) (fun _ => by omega)

/-- A read after consecutive writes. -/
theorem Memory.read_writeBytes :
    ∀ {bs : List Byte} {m : Memory} {a : Nat}, m.wf = true → (bs ≠ [] → a + bs.length ≤ Config.memSize) → ∀ c,
      (m.writeBytes a bs).read c = if h : a ≤ c ∧ c < a + bs.length then bs[c - a]'(by omega) else m.read c
  | [], _, _, _, _, c => by
    rw [dif_neg (by simp only [List.length_nil]; omega)]
    rfl
  | b :: bs, m, a, hm, h, c => by
    have h' := h (by simp)
    simp only [List.length_cons] at h'
    rw [Memory.writeBytes, Memory.read_writeBytes (Memory.wf_write hm (by omega)) (fun _ => by omega) c,
      Memory.read_write hm]
    rcases Nat.lt_trichotomy c a with hc | hc | hc
    · rw [dif_neg (by omega), dif_neg (by omega), if_neg (by omega)]
    · subst hc
      rw [dif_neg (by omega), dif_pos (by simp only [List.length_cons]; omega), if_pos rfl]
      simp
    · by_cases hr : c < a + 1 + bs.length
      · rw [dif_pos ⟨by omega, hr⟩, dif_pos ⟨by omega, by simp only [List.length_cons]; omega⟩]
        simp only [List.getElem_cons, show c - a ≠ 0 by omega, dite_false]
        congr 1
      · rw [dif_neg (by omega), dif_neg (by simp only [List.length_cons]; omega), if_neg (by omega)]

@[simp] theorem Memory.readBytes_length (m : Memory) (a n : Nat) : (m.readBytes a n).length = n := by simp [Memory.readBytes]

@[simp] theorem Memory.readBytes_getElem (m : Memory) (a n k : Nat) (h : k < (m.readBytes a n).length) :
    (m.readBytes a n)[k] = m.read (a + k) := by simp [Memory.readBytes]

/-! ### Equal memories are equal lists -/

theorem Memory.ext_from : ∀ {lo : Nat} {m m' : Memory}, Memory.wfFrom lo m = true → Memory.wfFrom lo m' = true →
    (∀ a, m.read a = m'.read a) → m = m'
  | _, [], [], _, _, _ => rfl
  | _, [], (k, b) :: m', _, h', h => by
    have := h k
    simp only [Memory.read, if_true] at this
    exact absurd this.symm (Memory.wfFrom_cons.1 h').2.2.1
  | _, (k, b) :: m, [], h', _, h => by
    have := h k
    simp only [Memory.read, if_true] at this
    exact absurd this (Memory.wfFrom_cons.1 h').2.2.1
  | _, (k, b) :: m, (k', b') :: m', hm, hm', h => by
    have hk := Memory.wfFrom_cons.1 hm
    have hk' := Memory.wfFrom_cons.1 hm'
    have hkk : k = k' := by
      rcases Nat.lt_trichotomy k k' with hlt | heq | hlt
      · have := h k
        rw [Memory.read, if_pos rfl,
          Memory.read_below (lo := k') hlt (Memory.wfFrom_cons.2 ⟨le_rfl, hk'.2⟩)] at this
        exact absurd this hk.2.2.1
      · exact heq
      · have := h k'
        rw [Memory.read_below (lo := k) hlt (Memory.wfFrom_cons.2 ⟨le_rfl, hk.2⟩), Memory.read, if_pos rfl] at this
        exact absurd this.symm hk'.2.2.1
    subst hkk
    have hb : b = b' := by simpa [Memory.read] using h k
    subst hb
    have : m = m' := Memory.ext_from hk.2.2.2 hk'.2.2.2 fun a => by
      by_cases ha : a = k
      · subst ha
        rw [Memory.read_below (Nat.lt_succ_self a) hk.2.2.2, Memory.read_below (Nat.lt_succ_self a) hk'.2.2.2]
      · simpa [Memory.read, ha] using h a
    rw [this]

end Sys2Proof.Machine
end

