-- ==== Sys2Proof/Laws/Ops.lean ====
section
/-! SUPPORT. One lemma per shared operation that says once everything it can do; proofs about instructions cite these instead of
unfolding the operation. -/

namespace Sys2Proof.Machine

/-! ### Range-checked memory accesses -/

theorem inRange_iff {a n : Nat} : inRange a n = true ↔ n = 0 ∨ a + n ≤ Config.memSize := by simp [inRange]

theorem inRange_eq_false_iff {a n : Nat} : inRange a n = false ↔ 0 < n ∧ Config.memSize < a + n := by
  simp [inRange, Nat.pos_iff_ne_zero]

/-- The reads of one instruction: all of the bytes when the whole range exists, else none. -/
theorem memReadBytes_eq (s : State) (a n : Nat) :
    memReadBytes s a n = if inRange a n then some (s.mem.readBytes a n) else none := rfl

theorem memReadBytes_eq_some {s : State} {a n : Nat} {bs : List Byte} :
    memReadBytes s a n = some bs ↔ inRange a n = true ∧ bs = s.mem.readBytes a n := by
  unfold memReadBytes
  cases inRange a n <;> simp [eq_comm (b := bs)]

theorem memReadBytes_eq_none {s : State} {a n : Nat} : memReadBytes s a n = none ↔ inRange a n = false := by
  simp [memReadBytes]

/-- The writes of one instruction: only memory changes, and only when the whole range exists. -/
theorem memWriteBytes_eq_some {s t : State} {a : Nat} {bs : List Byte} :
    memWriteBytes s a bs = some t ↔ inRange a bs.length = true ∧ t = { s with mem := s.mem.writeBytes a bs } := by
  unfold memWriteBytes
  cases inRange a bs.length <;> simp [eq_comm (b := t)]

theorem memWriteBytes_eq_none {s : State} {a : Nat} {bs : List Byte} :
    memWriteBytes s a bs = none ↔ inRange a bs.length = false := by
  simp [memWriteBytes]

/-- A range-checked write keeps the canonical form of memory. -/
theorem memWriteBytes_wf {s t : State} {a : Nat} {bs : List Byte} (hs : s.mem.wf = true)
    (h : memWriteBytes s a bs = some t) : t.mem.wf = true := by
  obtain ⟨hr, rfl⟩ := memWriteBytes_eq_some.1 h
  refine Memory.wf_writeBytes hs fun hne => ?_
  rcases inRange_iff.1 hr with h0 | h0
  · exact absurd (List.length_eq_zero_iff.1 h0) hne
  · exact h0

theorem memWriteByte_wf {s t : State} {a : Nat} {b : Byte} (hs : s.mem.wf = true) (h : memWriteByte s a b = some t) :
    t.mem.wf = true := by
  unfold memWriteByte at h
  split at h
  · cases h; exact Memory.wf_write hs ‹_›
  · cases h

/-- Memory after reset is canonical. -/
theorem reset_mem_wf : State.reset.mem.wf = true := rfl

/-- Placing a program word keeps the canonical form of memory. -/
theorem placeWord_wf {s : State} (op : Word) (hs : s.mem.wf = true) : (s.placeWord op).mem.wf = true := by
  unfold State.placeWord
  refine Memory.wf_writeBytes hs fun _ => ?_
  show (if _ then _ else _ : Word).toNat + 2 ≤ _
  split
  · omega
  · decide

/-- The stores of one instruction from `I` on: all of them and the advance, or the fault with nothing written. -/
theorem storeAtI_eq (bs : List Byte) (s : State) :
    storeAtI bs s =
      if inRange s.i.toNat bs.length then .next (State.advance { s with mem := s.mem.writeBytes s.i.toNat bs })
      else .next (s.takeFault .outOfBounds) := by
  unfold storeAtI memWriteBytes State.dataBase
  cases inRange s.i.toNat bs.length <;> rfl

/-- The loads of `Fx65`: all of them and the advance, or the fault with no register written. -/
theorem execLdVxMem_eq (x : Reg) (s : State) :
    execLdVxMem x s =
      if inRange s.i.toNat (x.val + 1) then .next (s.setRegs 0 (s.mem.readBytes s.i.toNat (x.val + 1))).advance
      else .next (s.takeFault .outOfBounds) := by
  unfold execLdVxMem memReadBytes State.dataBase
  cases inRange s.i.toNat (x.val + 1) <;> rfl

/-- The draw: pixels, VF, `dirty` and the advance, or the fault with nothing changed. -/
theorem execDrwVxVyNibble_eq (x y : Reg) (n : Nat) (s : State) :
    execDrwVxVyNibble x y n s =
      if inRange s.i.toNat n then
        let c := drawSprite s.fb (s.reg x).toNat (s.reg y).toNat (s.mem.readBytes s.i.toNat n)
        .next (State.setFlag { s with fb := c.fb, dirty := s.dirty || c.changed } c.collision).advance
      else .next (s.takeFault .outOfBounds) := by
  unfold execDrwVxVyNibble memReadBytes State.dataBase
  cases inRange s.i.toNat n <;> rfl

/-! ### The fetched word -/

theorem memReadWord_eq_some {s : State} {a : Nat} {op : Word} :
    memReadWord s a = some op ↔ a + 1 < Config.memSize ∧ op = wordOfBytes (s.mem.read a) (s.mem.read (a + 1)) := by
  simp [memReadWord, eq_comm]

theorem memReadWord_eq_none {s : State} {a : Nat} : memReadWord s a = none ↔ Config.memSize ≤ a + 1 := by
  simp [memReadWord]

/-- The fetched word depends on memory and `PC` alone. -/
theorem fetchWord_congr {s t : State} (hm : t.mem = s.mem) (hp : t.pc = s.pc) : t.fetchWord = s.fetchWord := by
  simp [State.fetchWord, memReadWord, hm, hp]

theorem fetchInstr_congr {s t : State} (hm : t.mem = s.mem) (hp : t.pc = s.pc) : t.fetchInstr = s.fetchInstr := by
  simp [State.fetchInstr, fetchWord_congr hm hp]

/-- Fetch and decode: the word of the instruction. -/
theorem fetchInstr_eq_ok {s : State} {i : Instr} :
    s.fetchInstr = .ok i ↔ ∃ op, s.fetchWord = some op ∧ decode op = .ok i := by
  unfold State.fetchInstr
  cases s.fetchWord with
  | none => simp
  | some op => cases h : decode op <;> simp [h]

/-- Fetch and decode: the fault of the stage that fails first. -/
theorem fetchInstr_eq_error {s : State} {k : Fault} :
    s.fetchInstr = .error k ↔
      (s.fetchWord = none ∧ k = .outOfBounds) ∨
      (∃ op r, s.fetchWord = some op ∧ decode op = .error r ∧ k = .illegalInstruction) := by
  unfold State.fetchInstr
  cases s.fetchWord with
  | none => simp [eq_comm]
  | some op => cases h : decode op <;> simp [h, eq_comm]

/-! ### The step -/

/-- Everything a step can do. -/
theorem step_cases (s : State) :
    (∃ r, s.latch = .halted r ∧ step s = .next s) ∨
    (∃ k, s.latch = .running ∧ s.fetchInstr = .error k ∧ step s = .next (s.takeFault k)) ∨
    (∃ i, s.latch = .running ∧ s.fetchInstr = .ok i ∧ step s = exec i s) := by
  unfold step
  cases hl : s.latch with
  | halted r => exact .inl ⟨r, rfl, rfl⟩
  | running =>
    cases hf : s.fetchInstr with
    | error k => exact .inr (.inl ⟨k, rfl, rfl, rfl⟩)
    | ok i => exact .inr (.inr ⟨i, rfl, rfl, rfl⟩)

/-! ### Call stack -/

theorem pop_eq_none {s : State} : s.pop = none ↔ s.sp.val = 0 := by
  unfold State.pop
  split
  · simp; omega
  · simp only [true_iff]; omega

/-- A push that succeeds writes one entry and counts it. -/
theorem push_eq_some {s t : State} {a : Word} (h : s.push a = some t) :
    ∃ hsp : s.sp.val < 16, t = { s with stack := s.stack.set s.sp.val a, sp := ⟨s.sp.val + 1, Nat.succ_lt_succ hsp⟩ } := by
  unfold State.push at h
  split at h
  · exact ⟨‹_›, (Option.some.inj h).symm⟩
  · cases h

theorem push_eq_none {s : State} {a : Word} : s.push a = none ↔ s.sp.val = 16 := by
  unfold State.push; split <;> simp <;> omega

/-- A pop that succeeds answers the newest entry and only lowers the count. -/
theorem pop_eq_some {s t : State} {a : Word} (h : s.pop = some (a, t)) :
    ∃ hsp : 0 < s.sp.val, a = s.stack[s.sp.val - 1]'(by omega) ∧ t = { s with sp := ⟨s.sp.val - 1, by omega⟩ } := by
  unfold State.pop at h
  split at h
  · rename_i hsp
    obtain ⟨h1, h2⟩ := Prod.mk.inj (Option.some.inj h)
    exact ⟨hsp, h1.symm, h2.symm⟩
  · cases h

/-! ### Several registers -/

theorem regBytes_length (s : State) (n : Nat) (h : n ≤ 16) : (s.regBytes n).length = n := by
  simp [State.regBytes, h]

theorem regBytes_getElem (s : State) (n k : Nat) (hk : k < (s.regBytes n).length) (h16 : k < 16) :
    (s.regBytes n)[k] = s.reg ⟨k, h16⟩ := by
  simp [State.regBytes, State.reg]

/-- Loading registers changes the register file alone. -/
theorem setRegs_eq : ∀ (bs : List Byte) (s : State) (k : Nat), s.setRegs k bs = { s with v := (s.setRegs k bs).v }
  | [], s, _ => rfl
  | b :: bs, s, k => by
    rw [State.setRegs]
    split
    · rw [setRegs_eq bs]; rfl
    · rw [setRegs_eq bs]

/-- Reading a register after several were loaded. -/
theorem setRegs_reg : ∀ (bs : List Byte) (s : State) (k : Nat) (r : Reg),
    (s.setRegs k bs).reg r = if h : k ≤ r.val ∧ r.val < k + bs.length then bs[r.val - k]'(by omega) else s.reg r
  | [], s, k, r => by
    rw [dif_neg (by simp only [List.length_nil]; omega)]
    rfl
  | b :: bs, s, k, r => by
    rw [State.setRegs, setRegs_reg bs]
    simp only [List.length_cons]
    by_cases h1 : k + 1 ≤ r.val ∧ r.val < k + 1 + bs.length
    · rw [dif_pos h1, dif_pos (by omega)]
      simp only [List.getElem_cons, show r.val - k ≠ 0 by omega, dite_false]
      congr 1
    · rw [dif_neg h1]
      by_cases h2 : r.val = k
      · have hk : k < 16 := h2 ▸ r.isLt
        have : r = ⟨k, hk⟩ := Fin.ext h2
        subst this
        simp [hk]
      · rw [dif_neg (c := k ≤ r.val ∧ _) (by omega)]
        by_cases hk : k < 16
        · rw [dif_pos hk]
          exact State.setReg_reg_ne s b fun h => h2 (congrArg Fin.val h)
        · rw [dif_neg hk]

/-! ### Keys -/

theorem keyAt_eq_none {s : State} {k : Byte} : s.keyAt k = none ↔ 16 ≤ k.toNat := by
  simp [State.keyAt]

theorem keyAt_eq_some {s : State} {k : Byte} {p : Bool} :
    s.keyAt k = some p ↔ ∃ h : k.toNat < 16, s.key[k.toNat] = p := by
  simp [State.keyAt]

theorem lowestKey_eq_none {s : State} : s.lowestKey = none ↔ ∀ k : Fin 16, s.key[k.val] = false := by
  unfold State.lowestKey
  rw [List.findIdx?_eq_none_iff]
  constructor
  · intro h k
    exact h _ (by simp)
  · intro h x hx
    obtain ⟨k, hk, rfl⟩ := List.getElem_of_mem hx
    have := h ⟨k, by simpa using hk⟩
    simpa using this

/-- The key found is pressed and no lower one is. -/
theorem lowestKey_eq_some {s : State} {k : Nat} :
    s.lowestKey = some k ↔ ∃ h : k < 16, s.key[k] = true ∧ ∀ j : Fin 16, j.val < k → s.key[j.val] = false := by
  unfold State.lowestKey
  rw [List.findIdx?_eq_some_iff_getElem]
  constructor
  · rintro ⟨h, hk, hj⟩
    refine ⟨by simpa using h, by simpa using hk, fun j hlt => ?_⟩
    simpa using hj j.val hlt
  · rintro ⟨h, hk, hj⟩
    refine ⟨by simpa using h, by simpa using hk, fun j hlt => ?_⟩
    simpa using hj ⟨j, hlt.trans h⟩ hlt

/-! ### Frames: from an equality of states -/

/-- A state that differs from `s` in named fields only agrees with it on every other part. -/
theorem Part.same_refl (p : Part) (s : State) : p.Same s s := by cases p <;> simp [Part.Same]

/-- A faulting step changes the latch alone. -/
theorem takeFault_sameBut (k : Fault) (s : State) : s.SameBut (s.takeFault k) [.latch] := by
  intro p hp
  cases p <;> first | (simp [Part.Same]; done) | (simp at hp)

end Sys2Proof.Machine
end

