-- ==== Sys2Proof/Laws/Events.lean ====
section
/-! SUPPORT. The events and `init`: what each does to a session, and the memory `init` makes. -/

namespace Sys2Proof.Machine

variable (font : Config.FontTable)

/-! ### Sessions -/

@[simp] theorem Session.draws_absent (d : Nat) : (Session.absent d).draws = d := rfl
@[simp] theorem Session.draws_living (s : State) : (Session.living s).draws = s.draws := rfl
@[simp] theorem Session.onMachine_absent (f : State → State) (d : Nat) : (Session.absent d).onMachine f = .absent d := rfl
@[simp] theorem Session.onMachine_living (f : State → State) (s : State) : (Session.living s).onMachine f = .living (f s) := rfl

/-- No `init` moves the random source. -/
@[simp] theorem Session.draws_initialised (made : Except LoadError State) (d : Nat) : (Session.initialised made d).draws = d := by
  cases made <;> rfl

/-- The machine an `init` leaves is the one it made, at the source's position. -/
theorem Session.initialised_eq_living {made : Except LoadError State} {d : Nat} {t : State} :
    Session.initialised made d = .living t ↔ ∃ s, made = .ok s ∧ t = { s with draws := d } := by
  cases made <;> simp [Session.initialised, eq_comm]

/-! ### Events -/

@[simp] theorem Event.apply_init (rom : List Byte) (m : Session) :
    (Event.init rom).apply font m = Session.initialised (State.init font rom) m.draws := rfl
@[simp] theorem Event.apply_step (m : Session) : Event.step.apply font m = m.onMachine State.stepped := rfl
@[simp] theorem Event.apply_tick (m : Session) : Event.tick.apply font m = m.onMachine State.tick := rfl
@[simp] theorem Event.apply_setKey (k : Nat) (p : Bool) (m : Session) :
    (Event.setKey k p).apply font m = m.onMachine (State.setKey k p) := rfl
@[simp] theorem Event.apply_present (m : Session) : Event.present.apply font m = m.onMachine State.present := rfl

@[simp] theorem runEvents_nil (m : Session) : runEvents font [] m = m := rfl
@[simp] theorem runEvents_cons (e : Event) (es : List Event) (m : Session) :
    runEvents font (e :: es) m = runEvents font es (e.apply font m) := rfl

/-- Taking a step as a state transformer. -/
theorem State.stepped_eq {s t : State} (h : step s = .next t) : s.stepped = t := by
  unfold State.stepped
  rw [h]

/-! ### `init` -/

theorem init_eq_ok {rom : List Byte} {s : State} :
    State.init font rom = .ok s ↔ rom.length ≤ 3584 ∧ s = { State.reset with mem := initMemory font rom } := by
  rw [State.init, show Config.memSize - Config.progBase = 3584 from rfl]
  by_cases h : rom.length ≤ 3584
  · rw [if_pos h]
    simp [h, eq_comm]
  · rw [if_neg h]
    simp [h]

theorem init_eq_error {rom : List Byte} {e : LoadError} :
    State.init font rom = .error e ↔ 3584 < rom.length ∧ e = .romTooLarge := by
  rw [State.init, show Config.memSize - Config.progBase = 3584 from rfl]
  by_cases h : rom.length ≤ 3584
  · rw [if_pos h]
    simp [h]
  · rw [if_neg h]
    simp only [Except.error.injEq, eq_comm (a := e), show 3584 < rom.length by omega, true_and]

/-- Memory with the font alone is canonical. -/
theorem fontMemory_wf : (State.reset.mem.writeBytes Config.fontBase font.toList).wf = true :=
  Memory.wf_writeBytes reset_mem_wf fun _ => by simp [Config.fontBase, Config.memSize]

/-- Memory after `init` is canonical. -/
theorem initMemory_wf {rom : List Byte} (h : rom.length ≤ 3584) : (initMemory font rom).wf = true :=
  Memory.wf_writeBytes (fontMemory_wf font) fun _ => by simp only [Config.progBase, Config.memSize]; omega

/-- Every byte after `init`: the ROM from 0x200, the font at 0x000 to 0x04F, 0x00 elsewhere. -/
theorem initMemory_read {rom : List Byte} (h : rom.length ≤ 3584) (a : Nat) :
    (initMemory font rom).read a =
      if hr : 0x200 ≤ a ∧ a < 0x200 + rom.length then rom[a - 0x200]'(by omega)
      else if hf : a < 80 then font[a] else 0 := by
  unfold initMemory
  rw [Memory.read_writeBytes (fontMemory_wf font) fun _ => by simp only [Config.progBase, Config.memSize]; omega,
    Memory.read_writeBytes reset_mem_wf fun _ => by simp [Config.fontBase, Config.memSize]]
  simp only [Config.progBase, Config.fontBase, Vector.length_toList, Vector.getElem_toList, Nat.zero_le, true_and, Nat.zero_add,
    Nat.sub_zero]
  split
  · rfl
  · split
    · rfl
    · show fontTable.getD a 0 = 0
      rw [List.getD_eq_getElem?_getD, List.getElem?_eq_none (show fontTable.length ≤ a by show 80 ≤ a; omega)]
      rfl

/-- With the default font and no ROM, nothing is listed. -/
theorem initMemory_default : initMemory defaultFont [] = [] := by decide

end Sys2Proof.Machine
end

