-- ==== Sys2Proof/Laws/PerInstr.lean ====
section
/-! SUPPORT. Statements about every instruction as syntax, one lemma per constructor. -/

namespace Sys2Proof.Laws.MatchesOpcodeRow

/-- The word of the instruction is in the instruction's row of the opcode map: `op & mask = match` (spec/30_encoding.md R65). -/
def Statement (i : Instr) : Prop := encode i &&& (opcodeRow i).2 = (opcodeRow i).1

theorem cls : Statement (.cls) := rfl

theorem ret : Statement (.ret) := rfl

theorem jpAddr (nnn : BitVec 12) : Statement (.jpAddr nnn) := by
  have := nnn.isLt
  exact and_major_mask_of_range (k := 1) (by simp only [encode]; rw [wordA_toNat] <;> omega)
    (by simp only [encode]; rw [wordA_toNat] <;> omega)

theorem callAddr (nnn : BitVec 12) : Statement (.callAddr nnn) := by
  have := nnn.isLt
  exact and_major_mask_of_range (k := 2) (by simp only [encode]; rw [wordA_toNat] <;> omega)
    (by simp only [encode]; rw [wordA_toNat] <;> omega)

theorem seVxByte (x : Reg) (kk : Byte) : Statement (.seVxByte x kk) := by
  have := kk.isLt
  exact and_major_mask_of_range (k := 3) (by simp only [encode]; rw [wordXK_toNat] <;> omega)
    (by simp only [encode]; rw [wordXK_toNat] <;> omega)

theorem sneVxByte (x : Reg) (kk : Byte) : Statement (.sneVxByte x kk) := by
  have := kk.isLt
  exact and_major_mask_of_range (k := 4) (by simp only [encode]; rw [wordXK_toNat] <;> omega)
    (by simp only [encode]; rw [wordXK_toNat] <;> omega)

theorem seVxVy (x y : Reg) : Statement (.seVxVy x y) := by revert x y; unfold Statement; decide

theorem ldVxByte (x : Reg) (kk : Byte) : Statement (.ldVxByte x kk) := by
  have := kk.isLt
  exact and_major_mask_of_range (k := 6) (by simp only [encode]; rw [wordXK_toNat] <;> omega)
    (by simp only [encode]; rw [wordXK_toNat] <;> omega)

theorem addVxByte (x : Reg) (kk : Byte) : Statement (.addVxByte x kk) := by
  have := kk.isLt
  exact and_major_mask_of_range (k := 7) (by simp only [encode]; rw [wordXK_toNat] <;> omega)
    (by simp only [encode]; rw [wordXK_toNat] <;> omega)

theorem ldVxVy (x y : Reg) : Statement (.ldVxVy x y) := by revert x y; unfold Statement; decide

theorem orVxVy (x y : Reg) : Statement (.orVxVy x y) := by revert x y; unfold Statement; decide

theorem andVxVy (x y : Reg) : Statement (.andVxVy x y) := by revert x y; unfold Statement; decide

theorem xorVxVy (x y : Reg) : Statement (.xorVxVy x y) := by revert x y; unfold Statement; decide

theorem addVxVy (x y : Reg) : Statement (.addVxVy x y) := by revert x y; unfold Statement; decide

theorem subVxVy (x y : Reg) : Statement (.subVxVy x y) := by revert x y; unfold Statement; decide

theorem shrVx (x y : Reg) : Statement (.shrVx x y) := by revert x y; unfold Statement; decide

theorem subnVxVy (x y : Reg) : Statement (.subnVxVy x y) := by revert x y; unfold Statement; decide

theorem shlVx (x y : Reg) : Statement (.shlVx x y) := by revert x y; unfold Statement; decide

theorem sneVxVy (x y : Reg) : Statement (.sneVxVy x y) := by revert x y; unfold Statement; decide

theorem ldIAddr (nnn : BitVec 12) : Statement (.ldIAddr nnn) := by
  have := nnn.isLt
  exact and_major_mask_of_range (k := 10) (by simp only [encode]; rw [wordA_toNat] <;> omega)
    (by simp only [encode]; rw [wordA_toNat] <;> omega)

theorem jpV0Addr (nnn : BitVec 12) : Statement (.jpV0Addr nnn) := by
  have := nnn.isLt
  exact and_major_mask_of_range (k := 11) (by simp only [encode]; rw [wordA_toNat] <;> omega)
    (by simp only [encode]; rw [wordA_toNat] <;> omega)

theorem rndVxByte (x : Reg) (kk : Byte) : Statement (.rndVxByte x kk) := by
  have := kk.isLt
  exact and_major_mask_of_range (k := 12) (by simp only [encode]; rw [wordXK_toNat] <;> omega)
    (by simp only [encode]; rw [wordXK_toNat] <;> omega)

theorem drwVxVyNibble (x y : Reg) (n : Nat) : Statement (.drwVxVyNibble x y n) := by
  exact and_major_mask_of_range (k := 13) (by simp only [encode]; rw [wordXYN_toNat] <;> omega)
    (by simp only [encode]; rw [wordXYN_toNat] <;> omega)

theorem skpVx (x : Reg) : Statement (.skpVx x) := by revert x; unfold Statement; decide

theorem sknpVx (x : Reg) : Statement (.sknpVx x) := by revert x; unfold Statement; decide

theorem ldVxDt (x : Reg) : Statement (.ldVxDt x) := by revert x; unfold Statement; decide

theorem ldVxK (x : Reg) : Statement (.ldVxK x) := by revert x; unfold Statement; decide

theorem ldDtVx (x : Reg) : Statement (.ldDtVx x) := by revert x; unfold Statement; decide

theorem ldStVx (x : Reg) : Statement (.ldStVx x) := by revert x; unfold Statement; decide

theorem addIVx (x : Reg) : Statement (.addIVx x) := by revert x; unfold Statement; decide

theorem ldFVx (x : Reg) : Statement (.ldFVx x) := by revert x; unfold Statement; decide

theorem ldBVx (x : Reg) : Statement (.ldBVx x) := by revert x; unfold Statement; decide

theorem ldMemVx (x : Reg) : Statement (.ldMemVx x) := by revert x; unfold Statement; decide

theorem ldVxMem (x : Reg) : Statement (.ldVxMem x) := by revert x; unfold Statement; decide

end Sys2Proof.Laws.MatchesOpcodeRow
end

