-- ==== Sys2Proof/Tests/Slice0.lean ====
section
/-! SUPPORT. The model's own tests: the well-formedness check, one written-out word per instruction, one small step or two per
instruction with the results of spec/95_test_vectors.md (the vector's id stands in the comment), and for every statement with
hypotheses a witness that meets them. -/

set_option maxRecDepth 8000

namespace Sys2Proof.Tests

open Sys2Proof.Machine

/-! ### Small states -/

/-- The reset machine with one instruction word at 0x200, that is `init` of a two-byte ROM (spec/95_test_vectors.md, conventions). -/
def rom (w : Nat) : State := State.reset.withFetchWord 16 w

/-- With a register set. -/
def setV (s : State) (r : Reg) (b : Byte) : State := s.setReg r b

/-- With `I` set. -/
def setI (s : State) (a : Word) : State := { s with i := a }

/-- With `PC` set. -/
def setPc (s : State) (a : Word) : State := { s with pc := a }

/-- With bytes of memory set. -/
def setMem (s : State) (a : Nat) (bs : List Byte) : State := { s with mem := s.mem.writeBytes a bs }

/-- With a key pressed. -/
def press (s : State) (k : Nat) : State := s.setKey k true

/-- With the count of stack entries set, every entry 0x0202. -/
def setSp (s : State) (n : Fin 17) : State := { s with sp := n, stack := Vector.replicate 16 0x0202 }

/-- The parts of a state most tests look at: `V[0]`, `V[1]`, VF, `PC`. -/
def look (s : State) : Byte × Byte × Byte × Word := (s.reg 0, s.reg 1, s.reg 15, s.pc)

/-- The columns of a row that are lit. -/
def litRow (s : State) (py : Nat) : List Nat := (List.range 64).filter fun px => s.fb.pixel px py

/-! ### Well-formedness -/

/-- The one check: a sprite height of 16 is refused, of 15 admitted. -/
theorem test_wellFormed_refuses_height_16 : Instr.wellFormed (.drwVxVyNibble 0 0 16) = false := by decide

theorem test_wellFormed_admits_height_15 : Instr.wellFormed (.drwVxVyNibble 15 15 15) = true := by decide

/-! ### Decoding: words written out from spec/30_encoding.md R61, R62, R65 -/

theorem test_decode_control_transfer :
    decodeTableWord 16 0b0000_0000_1110_1110 = some .ret ∧
    decodeTableWord 16 0b0001_1010_1011_1100 = some (.jpAddr 0xABC) ∧
    decodeTableWord 16 0b0010_1010_1011_1100 = some (.callAddr 0xABC) ∧
    decodeTableWord 16 0b0011_0100_1010_0101 = some (.seVxByte 4 0xA5) ∧
    decodeTableWord 16 0b0100_0100_1010_0101 = some (.sneVxByte 4 0xA5) ∧
    decodeTableWord 16 0b0101_0100_1001_0000 = some (.seVxVy 4 9) ∧
    decodeTableWord 16 0b1001_0100_1001_0000 = some (.sneVxVy 4 9) ∧
    decodeTableWord 16 0b1011_1010_1011_1100 = some (.jpV0Addr 0xABC) := by decide

theorem test_decode_alu :
    decodeTableWord 16 0b0110_0100_1010_0101 = some (.ldVxByte 4 0xA5) ∧
    decodeTableWord 16 0b0111_0100_1010_0101 = some (.addVxByte 4 0xA5) ∧
    decodeTableWord 16 0b1000_0100_1001_0000 = some (.ldVxVy 4 9) ∧
    decodeTableWord 16 0b1000_0100_1001_0001 = some (.orVxVy 4 9) ∧
    decodeTableWord 16 0b1000_0100_1001_0010 = some (.andVxVy 4 9) ∧
    decodeTableWord 16 0b1000_0100_1001_0011 = some (.xorVxVy 4 9) ∧
    decodeTableWord 16 0b1000_0100_1001_0100 = some (.addVxVy 4 9) ∧
    decodeTableWord 16 0b1000_0100_1001_0101 = some (.subVxVy 4 9) ∧
    decodeTableWord 16 0b1000_0100_1001_0110 = some (.shrVx 4 9) ∧
    decodeTableWord 16 0b1000_0100_1001_0111 = some (.subnVxVy 4 9) ∧
    decodeTableWord 16 0b1000_0100_1001_1110 = some (.shlVx 4 9) ∧
    decodeTableWord 16 0b1100_0100_1010_0101 = some (.rndVxByte 4 0xA5) := by decide

theorem test_decode_index_memory :
    decodeTableWord 16 0b1010_1010_1011_1100 = some (.ldIAddr 0xABC) ∧
    decodeTableWord 16 0b1111_0100_0001_1110 = some (.addIVx 4) ∧
    decodeTableWord 16 0b1111_0100_0010_1001 = some (.ldFVx 4) ∧
    decodeTableWord 16 0b1111_0100_0011_0011 = some (.ldBVx 4) ∧
    decodeTableWord 16 0b1111_0100_0101_0101 = some (.ldMemVx 4) ∧
    decodeTableWord 16 0b1111_0100_0110_0101 = some (.ldVxMem 4) := by decide

theorem test_decode_display :
    decodeTableWord 16 0b0000_0000_1110_0000 = some .cls ∧
    decodeTableWord 16 0b1101_0100_1001_0101 = some (.drwVxVyNibble 4 9 5) := by decide

theorem test_decode_keypad_timers :
    decodeTableWord 16 0b1110_0100_1001_1110 = some (.skpVx 4) ∧
    decodeTableWord 16 0b1110_0100_1010_0001 = some (.sknpVx 4) ∧
    decodeTableWord 16 0b1111_0100_0000_0111 = some (.ldVxDt 4) ∧
    decodeTableWord 16 0b1111_0100_0000_1010 = some (.ldVxK 4) ∧
    decodeTableWord 16 0b1111_0100_0001_0101 = some (.ldDtVx 4) ∧
    decodeTableWord 16 0b1111_0100_0001_1000 = some (.ldStVx 4) := by decide

/-- The bytes of an instruction are read the more significant first, and what follows them is left (R42, R60). -/
theorem test_decodeBytes : decodeBytes [0x6A, 0x9C, 0x12] = .ok (.ldVxByte 0xA 0x9C, [0x12]) ∧
    decodeBytes [0x6A] = .error .truncated := ⟨rfl, rfl⟩

/-- Words at the edges of R67's rows are rejected, each by its row. -/
theorem test_illegal_edges :
    decode 0x00E1 = .error .zeroGroup ∧ decode 0x0FFF = .error .zeroGroup ∧ decode 0x5001 = .error .fiveGroup ∧
    decode 0x8008 = .error .aluGroup ∧ decode 0x812D = .error .aluGroup ∧ decode 0x812F = .error .aluGroup ∧
    decode 0x912F = .error .nineGroup ∧ decode 0xE49F = .error .keyGroup ∧ decode 0xF466 = .error .miscGroup :=
  ⟨rfl, rfl, rfl, rfl, rfl, rfl, rfl, rfl, rfl⟩

/-! ### Control transfer -/

/-- T-C1 -/
theorem test_jpAddr : (rom 0x1ABC).stepped.pc = 0x0ABC := by decide

/-- T-C2, step 1 -/
theorem test_callAddr : (rom 0x2204).stepped.pc = 0x0204 ∧ (rom 0x2204).stepped.sp = 1 ∧
    (rom 0x2204).stepped.stack[0] = 0x0202 := by decide

/-- T-C3, step 17 -/
theorem test_callAddr_overflow : (setSp (rom 0x2200) 16).stepped.faultRec = some ⟨.stackOverflow, some 0x2200, 0x0200⟩ ∧
    (setSp (rom 0x2200) 16).stepped.sp = 16 := by decide

/-- T-C2, step 3: the newest entry is popped -/
theorem test_ret : (setSp (rom 0x00EE) 2).stepped.pc = 0x0202 ∧ (setSp (rom 0x00EE) 2).stepped.sp = 1 := by decide

/-- S8 -/
theorem test_ret_underflow : (rom 0x00EE).stepped.faultRec = some ⟨.stackUnderflow, some 0x00EE, 0x0200⟩ ∧
    (rom 0x00EE).stepped.pc = 0x0200 := by decide

/-- T-C4 -/
theorem test_seVxByte : (setV (rom 0x332A) 3 0x2A).stepped.pc = 0x0204 ∧
    (setV (rom 0x332B) 3 0x2A).stepped.pc = 0x0202 := by decide

/-- T-C5 -/
theorem test_sneVxByte : (setV (rom 0x432A) 3 0x2A).stepped.pc = 0x0202 ∧
    (setV (rom 0x432B) 3 0x2A).stepped.pc = 0x0204 := by decide

/-- T-C6 -/
theorem test_seVxVy : (setV (setV (rom 0x5120) 1 7) 2 7).stepped.pc = 0x0204 ∧
    (setV (setV (rom 0x5120) 1 7) 2 8).stepped.pc = 0x0202 := by decide

/-- T-C7 -/
theorem test_sneVxVy : (setV (setV (rom 0x9120) 1 7) 2 8).stepped.pc = 0x0204 ∧
    (setV (setV (rom 0x9120) 1 7) 2 7).stepped.pc = 0x0202 := by decide

/-- T-C8 -/
theorem test_jpV0Addr : (setV (rom 0xBFFF) 0 0xFF).stepped.pc = 0x10FE := by decide

/-- T-C9, steps 2 and 3, and T-C10: a fetch at 4094 is legal, at 4095 and above it faults with no word -/
theorem test_fetch_edges : (setMem (setPc State.reset 0x0FFE) 0xFFE [0x6A, 0x01]).stepped.pc = 0x1000 ∧
    (setPc State.reset 0x0FFF).stepped.faultRec = some ⟨.outOfBounds, none, 0x0FFF⟩ ∧
    (setPc State.reset 0x1000).stepped.faultRec = some ⟨.outOfBounds, none, 0x1000⟩ := by decide

/-- T-C13 -/
theorem test_illegal_word : State.reset.stepped.faultRec = some ⟨.illegalInstruction, some 0x0000, 0x0200⟩ := by decide

/-! ### Load, arithmetic, logic, shift, random -/

/-- T-A1 -/
theorem test_ldVxByte : (rom 0x6A9C).stepped.reg 0xA = 0x9C ∧ (rom 0x6A9C).stepped.pc = 0x0202 := by decide

/-- T-A2 -/
theorem test_addVxByte : look (setV (setV (rom 0x7102) 1 0xFF) 15 0x05).stepped = (0, 0x01, 0x05, 0x0202) := by decide

/-- T-A3 -/
theorem test_ldVxVy : (setV (rom 0x8120) 2 0x37).stepped.reg 1 = 0x37 := by decide

/-- T-A4 -/
theorem test_orVxVy : look (setV (setV (setV (rom 0x8121) 1 0xF0) 2 0x0F) 15 9).stepped =
    (0, 0xFF, 9, 0x0202) := by decide

/-- T-A5 -/
theorem test_andVxVy : look (setV (setV (setV (rom 0x8122) 1 0xF3) 2 0x3F) 15 9).stepped =
    (0, 0x33, 9, 0x0202) := by decide

/-- T-A6 -/
theorem test_xorVxVy : look (setV (setV (setV (rom 0x8123) 1 0xFF) 2 0x0F) 15 9).stepped =
    (0, 0xF0, 9, 0x0202) := by decide

/-- S4 -/
theorem test_addVxVy : look (setV (setV (rom 0x8014) 0 0xFF) 1 0x01).stepped = (0x00, 0x01, 0x01, 0x0202) ∧
    look (setV (setV (rom 0x8014) 0 0x01) 1 0x01).stepped = (0x02, 0x01, 0x00, 0x0202) := by decide

/-- T-A9, T-A11: the flag is written last, and the old VF is the operand -/
theorem test_addVxVy_vf : look (setV (setV (rom 0x8F14) 15 0xF0) 1 0x20).stepped = (0, 0x20, 0x01, 0x0202) ∧
    look (setV (setV (rom 0x81F4) 1 0xFF) 15 0x01).stepped = (0, 0x00, 0x01, 0x0202) := by decide

/-- T-A12, T-A13 -/
theorem test_subVxVy : look (setV (setV (rom 0x8125) 1 7) 2 7).stepped = (0, 0x00, 0x01, 0x0202) ∧
    look (setV (setV (rom 0x8125) 1 5) 2 7).stepped = (0, 0xFE, 0x00, 0x0202) := by decide

/-- T-A19, T-A18: `V[y]` is ignored -/
theorem test_shrVx : look (setV (rom 0x8126) 1 0xFF).stepped = (0, 0x7F, 0x01, 0x0202) ∧
    look (setV (setV (rom 0x8126) 1 0x04) 2 0xFF).stepped = (0, 0x02, 0x00, 0x0202) := by decide

/-- T-A21, T-A22 -/
theorem test_subnVxVy : look (setV (setV (rom 0x8127) 1 5) 2 7).stepped = (0, 0x02, 0x01, 0x0202) ∧
    look (setV (setV (rom 0x8127) 1 7) 2 5).stepped = (0, 0xFE, 0x00, 0x0202) := by decide

/-- T-A24, T-A25 -/
theorem test_shlVx : look (setV (setV (rom 0x812E) 1 0x81) 2 0x55).stepped = (0, 0x02, 0x01, 0x0202) ∧
    look (setV (rom 0x812E) 1 0x40).stepped = (0, 0x80, 0x00, 0x0202) := by decide

/-- T-A31, T-A32, for the free draw: `kk` = 0xFF gives the draw itself, and each execution consumes one -/
theorem test_rndVxByte (b : Byte) (h : Config.randomByte 0 = b) : (rom 0xC3FF).stepped.reg 3 = b &&& 0xFF ∧
    (rom 0xC300).stepped.reg 3 = b &&& 0x00 ∧ (rom 0xC300).stepped.draws = 1 := by subst h; exact ⟨rfl, rfl, rfl⟩

/-! ### Address register and memory -/

/-- S9 -/
theorem test_ldIAddr : (rom 0xA22A).stepped.i = 0x022A ∧ (rom 0xA22A).stepped.pc = 0x0202 := by decide

/-- T-M3, T-M4 -/
theorem test_addIVx : (setI (setV (rom 0xF21E) 2 1) 0x0FFF).stepped.i = 0x0000 ∧
    (setI (setV (rom 0xF21E) 2 0xFF) 0x0F80).stepped.i = 0x007F := by decide

/-- T-M5, T-M6 -/
theorem test_ldFVx : (setV (rom 0xF029) 0 0x0A).stepped.i = 0x0032 ∧
    (setV (rom 0xF029) 0 0xFF).stepped.i = 0x04FB := by decide

/-- T-M8 -/
theorem test_ldBVx : (setI (setV (rom 0xF033) 0 255) 0x0FFD).stepped.mem.readBytes 0xFFC 4 = [0, 2, 5, 5] := by decide

/-- T-M9 -/
theorem test_ldBVx_out_of_bounds :
    (setI (setV (rom 0xF033) 0 255) 0x0FFE).stepped.faultRec = some ⟨.outOfBounds, some 0xF033, 0x0200⟩ ∧
    (setI (setV (rom 0xF033) 0 255) 0x0FFE).stepped.mem.readBytes 0xFFE 2 = [0, 0] := by decide

/-- T-M10 -/
theorem test_ldMemVx : (setI (setV (setV (setV (rom 0xF255) 0 1) 1 2) 2 3) 0x0FFD).stepped.mem.readBytes
    0xFFC 4 = [0, 1, 2, 3] := by decide

/-- T-M11 -/
theorem test_ldMemVx_out_of_bounds :
    (setI (setV (rom 0xF255) 0 1) 0x0FFE).stepped.faultRec = some ⟨.outOfBounds, some 0xF255, 0x0200⟩ ∧
    (setI (setV (rom 0xF255) 0 1) 0x0FFE).stepped.mem.readBytes 0xFFE 2 = [0, 0] := by decide

/-- T-M13 -/
theorem test_ldVxMem : look (setI (setMem (setV (rom 0xF065) 1 0x11) 0x300 [0x77, 0x88]) 0x0300).stepped =
    (0x77, 0x11, 0x00, 0x0202) := by decide

/-- T-M14 -/
theorem test_ldVxMem_out_of_bounds :
    (setI (setV (rom 0xF265) 0 9) 0x0FFE).stepped.faultRec = some ⟨.outOfBounds, some 0xF265, 0x0200⟩ ∧
    look (setI (setV (rom 0xF265) 0 9) 0x0FFE).stepped = (9, 0, 0, 0x0200) := by decide

/-! ### Display -/

/-- T-D12 -/
theorem test_cls : (rom 0x00E0).stepped.dirty = true ∧ stepReport (rom 0x00E0) = .outcome true := by decide

/-- A drawing state: the word at 0x200, sprite bytes at 0x300, `I` = 0x300, coordinates in V0, V1. -/
def drawing (w : Nat) (px py : Byte) (rows : List Byte) : State :=
  setI (setMem (setV (setV (rom w) 0 px) 1 py) 0x300 rows) 0x0300

/-- T-D3: the most significant bit is the leftmost pixel, and rows wrap -/
theorem test_drwVxVyNibble : litRow (drawing 0xD012 0 31 [0x80, 0x01]).stepped 31 = [0] ∧
    litRow (drawing 0xD012 0 31 [0x80, 0x01]).stepped 0 = [7] ∧
    (drawing 0xD012 0 31 [0x80, 0x01]).stepped.reg 15 = 0 := by decide

/-- S3: the same row twice -/
theorem test_drwVxVyNibble_twice :
    litRow (setPc (drawing 0xD011 10 5 [0xFF]).stepped 0x0200).stepped 5 = [] ∧
    (setPc (drawing 0xD011 10 5 [0xFF]).stepped 0x0200).stepped.reg 15 = 1 := by decide

/-! ### Keypad and timers -/

/-- T-K1, T-K3 -/
theorem test_skpVx : (press (setV (rom 0xE49E) 4 0x0A) 0xA).stepped.pc = 0x0204 ∧
    (setV (rom 0xE49E) 4 0x10).stepped.faultRec = some ⟨.outOfBounds, some 0xE49E, 0x0200⟩ := by decide

/-- T-K2, T-K4 -/
theorem test_sknpVx : (press (setV (rom 0xE4A1) 4 0x0A) 0xA).stepped.pc = 0x0202 ∧
    (setV (rom 0xE4A1) 4 0xFF).stepped.faultRec = some ⟨.outOfBounds, some 0xE4A1, 0x0200⟩ := by decide

/-- S7, T-K6: no key, and the lowest of two -/
theorem test_ldVxK : (rom 0xF50A).stepped.pc = 0x0200 ∧ (press (press (rom 0xF50A) 7) 3).stepped.reg 5 = 3 ∧
    (press (press (rom 0xF50A) 7) 3).stepped.pc = 0x0202 := by decide

/-- T-K7 -/
theorem test_ldVxDt : ({ rom 0xF307 with dt := 0x1E } : State).stepped.reg 3 = 0x1E := by decide

/-- T-K8 -/
theorem test_ldDtVx : (setV (rom 0xF015) 0 2).stepped.dt = 2 := by decide

/-- T-K8 -/
theorem test_ldStVx : (setV (rom 0xF118) 1 1).stepped.st = 1 := by decide

/-- T-K9: floor at 0 -/
theorem test_tick : ({ State.reset with dt := 1 } : State).tick.dt = 0 ∧ State.reset.tick.dt = 0 := by decide

/-- T-K10: events still act on a halted machine, which then reports the same record -/
theorem test_events_when_halted : ({ rom 0x00EE with dt := 3 } : State).stepped.tick.dt = 2 ∧
    stepReport ({ rom 0x00EE with dt := 3 } : State).stepped.tick = .fault ⟨.stackUnderflow, some 0x00EE, 0x0200⟩ := by decide

/-! ### Memory and reset -/

/-- T-R2: the font at reset (bytes per D10) -/
theorem test_font : State.reset.mem.readBytes 0x000 5 = [0xF0, 0x90, 0x90, 0x90, 0xF0] ∧
    State.reset.mem.readBytes 0x04B 7 = [0xF0, 0x80, 0xF0, 0x80, 0x80, 0x00, 0x00] := by decide

/-- Writing the byte an unlisted address reads as removes the entry, in the font too. -/
theorem test_memory_canonical : Memory.write (Memory.write [] 3 0x12) 1 0x34 = [(1, 0x34), (3, 0x12)] ∧
    Memory.write (Memory.write [] 3 0x12) 3 0x90 = [] ∧ Memory.write [] 0x300 0x00 = [] := by decide

/-- T-R1, T-R3: a ROM too long, and the empty one -/
theorem test_init : State.init defaultFont (List.replicate 3585 0) = .error .romTooLarge ∧
    State.init defaultFont [] = .ok State.reset := by
  refine ⟨if_neg ?_, rfl⟩
  rw [List.length_replicate]
  decide

/-- Another font is what memory holds at 0x000 to 0x04F, up to its last byte. -/
theorem test_init_font : (initMemory (Vector.replicate 80 0x3C) [0x12, 0x00]).readBytes 0x04E 3 = [0x3C, 0x3C, 0x00] ∧
    (initMemory (Vector.replicate 80 0x3C) [0x12, 0x00]).readBytes 0x200 2 = [0x12, 0x00] := by decide

/-- A `Cxkk`, a failed `init` and another `init`: the random source goes on (R111, R181). -/
theorem test_init_failed_keeps_draws :
    (runEvents defaultFont [.step, .init (List.replicate 3585 0), .init []] (.living (rom 0xC300))).draws = 1 := by
  simp only [runEvents_cons, runEvents_nil, Event.apply_init, Session.draws_initialised, Event.apply_step,
    Session.onMachine_living, Session.draws_living]
  decide

/-! ### Witnesses: a concrete state and operands that meet each statement's hypotheses, clause by clause, at the edges -/

theorem witness_DecodeOfEncodeIsTheInstruction : Instr.wellFormed (.drwVxVyNibble 15 15 15) = true ∧
    Instr.wellFormed (.shlVx 1 15) = true := by decide

theorem witness_EncodeOfDecodeIsTheWord : decode 0x81FE = .ok (.shlVx 1 15) ∧ decode 0xFFFF = .error .miscGroup := ⟨rfl, rfl⟩

theorem witness_DecodeFollowsTheOpcodeMap : decode 0xDFFF = .ok (.drwVxVyNibble 15 15 15) ∧
    (0xDFFF : Word) &&& (opcodeRow (.drwVxVyNibble 0 0 0)).2 = (opcodeRow (.drwVxVyNibble 0 0 0)).1 := ⟨rfl, by decide⟩

/-- One word inside and one just outside each row of R67. -/
theorem witness_RejectedWordsAreTheIllegalOnes :
    [0x00DF, 0x0FFF, 0x5FFF, 0x8008, 0x9001, 0xE0A0, 0xFFFF].all (fun w => (decodeTableWord 16 w).isNone) = true ∧
    [0x00E0, 0x1000, 0x5FF0, 0x8007, 0x9000, 0xE0A1, 0xFF65].all (fun w => (decodeTableWord 16 w).isSome) = true := by decide

theorem witness_UnlistedFunctionCodesRaiseIllegalInstruction :
    (rom 0x8008).latch = .running ∧ (rom 0x8008).fetchWord = some 0x8008 ∧ (rom 0x8FFF).fetchWord = some 0x8FFF ∧
    (rom 0xE000).fetchWord = some 0xE000 ∧ (rom 0xF0FF).fetchWord = some 0xF0FF := by decide

/-- The last address that can be fetched from, and the first that cannot. -/
theorem witness_InstructionFetchIsBigEndian : memReadWord State.reset 4094 = some 0 ∧ memReadWord State.reset 4095 = none ∧
    (setMem (setPc State.reset 0x0FFE) 0xFFE [0x6A, 0x01]).fetchWord = some 0x6A01 := by decide

theorem witness_StepExecutesTheDecodedInstruction :
    (setMem (setPc State.reset 0x0FFE) 0xFFE [0x6A, 0x01]).latch = .running ∧ (0x0FFE : Word).toNat + 1 < 4096 ∧
    (setMem (setPc State.reset 0x0FFE) 0xFFE [0x6A, 0x01]).fetchInstr.toOption = some (.ldVxByte 0xA 1) := by decide

theorem witness_FetchAndDecodeFaultsAreTaken : (setPc State.reset 0x0FFF).latch = .running ∧
    4095 ≤ (setPc State.reset 0x0FFF).pc.toNat ∧ (setPc State.reset 0x0FFE).fetchWord = some 0x0000 ∧
    decodeTableWord 16 0x0000 = none := by decide

/-- A step that halts, with the fetch at 4095 and at 4094. -/
theorem witness_FaultingStepChangesOnlyTheLatch : (setPc State.reset 0x0FFF).latch = .running ∧
    (setPc State.reset 0x0FFF).stepped.halted = true ∧ (setPc State.reset 0x0FFE).stepped.halted = true := by decide

theorem witness_StackAndDecodeFaultsHaveOneCause :
    (setSp (rom 0x2200) 16).fetchInstr.toOption = some (.callAddr 0x200) ∧ (rom 0x00EE).fetchInstr.toOption = some .ret ∧
    (setSp (rom 0x2200) 16).latch = .running ∧ (rom 0x00EE).sp.val = 0 ∧ (rom 0xFFFF).fetchWord = some 0xFFFF := by decide

/-- Each of the six causes at its first faulting value. -/
theorem witness_OutOfBoundsHasSixCauses : (setPc State.reset 0x0FFF).stepped.halted = true ∧
    (setI (rom 0xD012) 0x0FFF).stepped.halted = true ∧ (setI (rom 0xF033) 0x0FFE).stepped.halted = true ∧
    (setI (rom 0xF155) 0x0FFF).stepped.halted = true ∧ (setI (rom 0xF165) 0x0FFF).stepped.halted = true ∧
    (setV (rom 0xE09E) 0 16).stepped.halted = true ∧ (setV (rom 0xE0A1) 0 16).stepped.halted = true := by decide

theorem witness_HaltedStepReportsTheRecordAgain :
    (rom 0x00EE).stepped.latch = .halted ⟨.stackUnderflow, some 0x00EE, 0x0200⟩ := by decide

theorem witness_HaltIsPermanentUntilInit : (∀ e ∈ [Event.step, .tick, .setKey 15 true, .present], ∀ r, e ≠ .init r) ∧
    (rom 0x00EE).stepped.latch = .halted ⟨.stackUnderflow, some 0x00EE, 0x0200⟩ := by
  refine ⟨?_, by decide⟩
  intro e he r
  fin_cases he <;> exact Event.noConfusion

theorem witness_SafeRunsAreThoseThatEndRunning : (∀ e ∈ [Event.step, .step], ∀ r, e ≠ .init r) ∧
    runEvents defaultFont [.step, .step] (.living (rom 0x1200)) = .living (rom 0x1200) ∧ (rom 0x1200).halted = false ∧
    runEvents defaultFont [.step, .step] (.living (rom 0x00EE)) = .living (rom 0x00EE).stepped ∧
    (rom 0x00EE).stepped.halted = true := by
  refine ⟨?_, by decide⟩
  intro e he r
  fin_cases he <;> exact Event.noConfusion

theorem witness_PlacedWordIsTheNextInstruction : (setPc State.reset 0x0FFF).mem.wf = true ∧
    decodeTableWord 16 0x6A01 = some (.ldVxByte 0xA 1) := by decide

theorem witness_StepKeepsTheInvariant : (setSp (rom 0x2200) 2).Inv ∧ step (rom 0x1200) = .next (rom 0x1200).stepped := by
  refine ⟨⟨by decide, by decide, by decide, by decide, ?_⟩, rfl⟩
  intro r h
  cases h

theorem witness_HostEventsKeepTheInvariant : (rom 0x00E0).Inv ∧ State.init defaultFont [] = .ok State.reset := by
  refine ⟨⟨by decide, by decide, by decide, by decide, ?_⟩, rfl⟩
  intro r h
  cases h

theorem witness_EventSequencesMeetTheInvariant :
    runEvents defaultFont [.init [0x12, 0x00], .step, .tick] (.absent 3) = .living { rom 0x1200 with draws := 3 } := by decide

/-- The last byte of memory, and the first address past it. -/
theorem witness_WrittenBytesReadBack : State.reset.mem.wf = true ∧ (memWriteByte State.reset 4095 0xAB).isSome = true ∧
    (memWriteByte State.reset 4096 0xAB).isNone = true ∧ memReadByte State.reset 4096 = none := by decide

theorem witness_StoresAreByteWritesInSequence : (memWriteBytes State.reset 5000 []).isSome = true ∧
    (memWriteBytes State.reset 4094 [1, 2]).isSome = true ∧ (memWriteBytes State.reset 4095 [1, 2]).isNone = true := by decide

theorem witness_SkipsCompareBytes : ∃ n : Nat, 1 ≤ n ∧ n < 16 := ⟨15, by decide⟩

theorem witness_ReturnPopsTheStack : 0 < (setSp State.reset 1).sp.val ∧ (setSp State.reset 16).sp.val = 16 ∧
    State.reset.sp.val = 0 := by decide

theorem witness_CallPushesTheReturnAddress : (setSp State.reset 15).sp.val < 16 ∧ (setSp State.reset 16).sp.val = 16 := by decide

theorem witness_ReturnUndoesCall : (setSp State.reset 15).sp.val < 16 ∧ State.reset.sp.val < 16 := by decide

/-- The last register the sum clause speaks of; the largest sum without a carry and the smallest with one. -/
theorem witness_AddSetsCarry : (14 : Reg) ≠ 15 ∧ ¬ (0xFF : Byte).toNat + (0x00 : Byte).toNat > 255 ∧
    (0xFF : Byte).toNat + (0x01 : Byte).toNat > 255 := by decide

/-- Equality is no borrow; one less is a borrow. -/
theorem witness_SubtractSetsNotBorrow : (14 : Reg) ≠ 15 ∧ (0x07 : Byte).toNat ≥ (0x07 : Byte).toNat ∧
    ¬ (0x06 : Byte).toNat ≥ (0x07 : Byte).toNat := by decide

theorem witness_ShiftsSaveTheLostBit : (14 : Reg) ≠ 15 := by decide

/-- A mask with a 0 bit, and an event that moves the random source. -/
theorem witness_RandomByteIsMasked : (0x7F : Byte).getLsbD 7 = false ∧ (rom 0xC300).latch = .running ∧
    (rom 0xC300).fetchInstr.toOption = some (.rndVxByte 3 0) := by decide

theorem witness_DecimalDigitsAreStored : State.reset.mem.wf = true ∧ (setI State.reset 4093).i.toNat + 2 < 4096 ∧
    (setI State.reset 4094).i.toNat + 2 ≥ 4096 := by decide

theorem witness_RegistersAreStoredInclusive : State.reset.mem.wf = true ∧ (setI State.reset 4080).i.toNat + (15 : Reg).val < 4096 ∧
    (setI State.reset 4081).i.toNat + (15 : Reg).val ≥ 4096 := by decide

theorem witness_RegistersAreLoadedInclusive : (setI State.reset 4080).i.toNat + (15 : Reg).val < 4096 ∧
    (setI State.reset 4081).i.toNat + (15 : Reg).val ≥ 4096 ∧ (15 : Reg) ≤ 15 ∧ (0 : Reg) < 1 := by decide

/-- The state after the store itself has the same `I` and the same memory. -/
theorem witness_LoadAfterStoreRestoresRegisters : State.reset.mem.wf = true ∧ State.reset.i.toNat + (15 : Reg).val < 4096 ∧
    (rom 0xF355).stepped.i = (rom 0xF355).i := by decide

/-- No row, the last legal sprite address, and the first illegal one; a pixel that is covered, one that is not, a collision and
none. -/
theorem witness_DrawTogglesTheCoveredPixels : (setI State.reset 4095).i.toNat + 1 - 1 < 4096 ∧
    (setI State.reset 4095).i.toNat + 2 - 1 ≥ 4096 ∧ SpriteCovers [0x80] 70 33 6 1 ∧ ¬ SpriteCovers [] 70 33 6 1 ∧
    (drawing 0xD011 10 5 [0xFF]).stepped.fb.pixel 10 5 = true ∧ State.reset.fb.pixel 10 5 = false := by
  refine ⟨by decide, by decide, ⟨0, 0, by decide, by decide, by decide, by decide, by decide⟩, ?_, by decide, by decide⟩
  rintro ⟨k, _, h, -⟩
  exact absurd h (Nat.not_lt_zero k)

/-- A draw that leaves its coordinates as they are. -/
theorem witness_DrawingTwiceRestoresThePixels : (drawing 0xD011 10 5 [0xFF]).i.toNat + 1 - 1 < 4096 ∧
    (drawing 0xD011 10 5 [0xFF]).stepped.reg 0 = (drawing 0xD011 10 5 [0xFF]).reg 0 ∧
    (drawing 0xD011 10 5 [0xFF]).stepped.reg 1 = (drawing 0xD011 10 5 [0xFF]).reg 1 := by decide

theorem witness_DrawCountsLitPixels : (setI State.reset 4081).i.toNat + 15 - 1 < 4096 := by decide

theorem witness_KeySkipsTestTheLatch : ((setV State.reset 0 15).reg 0).toNat < 16 ∧ ((setV State.reset 0 16).reg 0).toNat ≥ 16 := by
  decide

/-- No key; the highest key alone; the lowest of all. -/
theorem witness_WaitForKeyRetries : (∀ k : Fin 16, State.reset.key[k.val] = false) ∧ (press State.reset 15).key[15] = true ∧
    (∀ j : Fin 16, j < 15 → (press State.reset 15).key[j.val] = false) ∧ (press State.reset 0).key[0] = true := by decide

theorem witness_SetKeySetsOneKey : (press State.reset 15).key[15] = true ∧ press State.reset 16 = State.reset := by decide

/-- A step that faults, one that sets `dirty`, one that does not. -/
theorem witness_StepReportsFaultOrBecameDirty :
    stepReport (rom 0x00EE) = .fault ⟨.stackUnderflow, some 0x00EE, 0x0200⟩ ∧ stepReport (rom 0x1200) = .outcome false ∧
    stepReport (drawing 0xD011 0 0 [0x01]) = .outcome true ∧ stepReport (drawing 0xD011 0 0 [0x00]) = .outcome false := by decide

theorem witness_DisplayPixelsAreRowMajor : (drawing 0xD011 63 31 [0x80]).stepped.displayPixels[2047]? = some true := by decide

/-- The longest ROM, and one byte more. -/
theorem witness_InitLoadsTheRom : (List.replicate 3584 (0xAB : Byte)).length ≤ 3584 ∧
    (List.replicate 3585 (0xAB : Byte)).length > 3584 := by
  rw [List.length_replicate, List.length_replicate]
  decide

/-- A step that changes each part. -/
theorem witness_OnlyTheirInstructionsChangeEachPart : (setV (rom 0xF015) 0 1).stepped.dt = 1 ∧
    (setV (rom 0xF018) 0 1).stepped.st = 1 ∧ (rom 0x00E0).stepped.dirty = true ∧ (rom 0xA001).stepped.i = 1 ∧
    (setI (setV (rom 0xF055) 0 1) 0x0300).stepped.mem.read 0x300 = 1 ∧ (rom 0x2200).stepped.sp = 1 ∧
    (rom 0xC000).stepped.draws = 1 := by decide

theorem witness_RegistersChangeOnlyAsTabled : (rom 0x6F01).stepped.reg 15 ≠ (rom 0x6F01).reg 15 := by decide

theorem witness_PcAfterAStep : (rom 0x1200).Runs (.jpAddr 0x200) ∧ (rom 0x1200).stepped.latch = .running :=
  ⟨⟨rfl, rfl⟩, rfl⟩

theorem witness_SoundTimerAndDirtyAreUnobservable : step (rom 0xF018) = .next (rom 0xF018).stepped := rfl

/-- A stack that differs above the held entries, in a state that holds one. -/
theorem witness_StaleStackEntriesAreUnobservable :
    (∀ j : Fin 16, j.val < (setSp (rom 0x00EE) 1).sp.val →
      ((setSp (rom 0x00EE) 1).stack.set 1 0xFFFF)[j.val] = (setSp (rom 0x00EE) 1).stack[j.val]) ∧
    (setSp (rom 0x00EE) 1).stack.set 1 0xFFFF ≠ (setSp (rom 0x00EE) 1).stack := by decide

end Sys2Proof.Tests
end

section
/-! SUPPORT. The fields of the words of formats A, XK and XY (spec/30_encoding.md R61, R62): a word gives back the major opcode
and the operands it is made of. -/

namespace Sys2Proof

/-! ### Format A -/

@[simp] theorem majorField_wordA {base : Nat} (h : base ≤ 0xF000) (h0 : base % 0x1000 = 0) (nnn : BitVec 12) :
    majorField (wordA base nnn) = base / 0x1000 := by
  have := nnn.isLt
  rw [majorField_eq, wordA_toNat h]; omega

@[simp] theorem nnnField_wordA {base : Nat} (h : base ≤ 0xF000) (h0 : base % 0x1000 = 0) (nnn : BitVec 12) :
    nnnField (wordA base nnn) = nnn := by
  have := nnn.isLt
  apply BitVec.eq_of_toNat_eq
  rw [nnnField_toNat, wordA_toNat h]; omega

/-! ### Format XK -/

@[simp] theorem majorField_wordXK {base : Nat} (h : base ≤ 0xF000) (h0 : base % 0x1000 = 0) (x : Reg) (kk : Byte) :
    majorField (wordXK base x kk) = base / 0x1000 := by
  have := kk.isLt
  rw [majorField_eq, wordXK_toNat h]; omega

@[simp] theorem xField_wordXK {base : Nat} (h : base ≤ 0xF000) (h0 : base % 0x1000 = 0) (x : Reg) (kk : Byte) :
    xField (wordXK base x kk) = x := by
  have := kk.isLt
  apply Fin.ext
  rw [xField_val, wordXK_toNat h]; omega

@[simp] theorem kkField_wordXK {base : Nat} (h : base ≤ 0xF000) (h0 : base % 0x1000 = 0) (x : Reg) (kk : Byte) :
    kkField (wordXK base x kk) = kk := by
  have := kk.isLt
  apply BitVec.eq_of_toNat_eq
  rw [kkField_toNat, wordXK_toNat h]; omega

/-! ### Formats XY and XYN -/

@[simp] theorem majorField_wordXYN {base : Nat} (h : base ≤ 0xF000) (h0 : base % 0x1000 = 0) (x y : Reg) (fn : Nat) :
    majorField (wordXYN base x y fn) = base / 0x1000 := by
  rw [majorField_eq, wordXYN_toNat h]; omega

@[simp] theorem xField_wordXYN {base : Nat} (h : base ≤ 0xF000) (h0 : base % 0x1000 = 0) (x y : Reg) (fn : Nat) :
    xField (wordXYN base x y fn) = x := by
  apply Fin.ext
  rw [xField_val, wordXYN_toNat h]; omega

@[simp] theorem yField_wordXYN {base : Nat} (h : base ≤ 0xF000) (h0 : base % 0x1000 = 0) (x y : Reg) (fn : Nat) :
    yField (wordXYN base x y fn) = y := by
  apply Fin.ext
  rw [yField_val, wordXYN_toNat h]; omega

@[simp] theorem nField_wordXYN {base : Nat} (h : base ≤ 0xF000) (h0 : base % 0x1000 = 0) (x y : Reg) (fn : Nat) :
    nField (wordXYN base x y fn) = fn % 16 := by
  rw [nField_eq, wordXYN_toNat h]; omega

/-- With a function nibble that fits its field, the word is the plain sum of the fields. -/
theorem wordXYN_eq_ofNat {base fn : Nat} (hfn : fn < 16) (x y : Reg) :
    wordXYN base x y fn = BitVec.ofNat 16 (base + 0x100 * x.val + 0x10 * y.val + fn) := by
  rw [wordXYN, Nat.mod_eq_of_lt hfn]

/-! ### The decoder on the words of the jump and of the compare skips (R64) -/

theorem decode_jpAddr (nnn : BitVec 12) : decode (wordA 0x1000 nnn) = .ok (.jpAddr nnn) := by
  simp [decode]

theorem decode_seVxByte (x : Reg) (kk : Byte) : decode (wordXK 0x3000 x kk) = .ok (.seVxByte x kk) := by
  simp [decode]

theorem decode_sneVxByte (x : Reg) (kk : Byte) : decode (wordXK 0x4000 x kk) = .ok (.sneVxByte x kk) := by
  simp [decode]

theorem decode_fiveGroup (x y : Reg) (fn : Nat) :
    decode (wordXYN 0x5000 x y fn) = if fn % 16 = 0 then .ok (.seVxVy x y) else .error .fiveGroup := by
  simp [decode]

theorem decode_nineGroup (x y : Reg) (fn : Nat) :
    decode (wordXYN 0x9000 x y fn) = if fn % 16 = 0 then .ok (.sneVxVy x y) else .error .nineGroup := by
  simp [decode]

theorem decode_seVxVy (x y : Reg) : decode (wordXYN 0x5000 x y 0) = .ok (.seVxVy x y) := by simp [decode_fiveGroup]

theorem decode_sneVxVy (x y : Reg) : decode (wordXYN 0x9000 x y 0) = .ok (.sneVxVy x y) := by simp [decode_nineGroup]

/-- A nonzero low nibble of a compare of two registers is illegal (R67). -/
theorem decode_registerSkips_rejected {n : Nat} (h1 : 1 ≤ n) (h16 : n < 16) (x y : Reg) :
    decode (wordXYN 0x5000 x y n) = .error .fiveGroup ∧ decode (wordXYN 0x9000 x y n) = .error .nineGroup := by
  have hn : n % 16 ≠ 0 := by omega
  exact ⟨by rw [decode_fiveGroup, if_neg hn], by rw [decode_nineGroup, if_neg hn]⟩

end Sys2Proof
end

section
/-! SUPPORT. The meanings of the jump and of the four compare skips (spec/40_flow.md R83, R85 to R89), and the statements about
them. -/

namespace Sys2Proof.Machine

/-- A jump as a record: only `PC` changes. -/
theorem exec_jpAddr (nnn : BitVec 12) (s : State) :
    exec (.jpAddr nnn) s = .next { s with pc := addrOperand nnn } := rfl

/-- The shared skip of R85 as a record, for a tested Boolean that decides `p`: only `PC` changes. -/
theorem State.skipIf_eq {c : Bool} {p : Prop} [Decidable p] (h : c = true ↔ p) (s : State) :
    s.skipIf c = { s with pc := if p then s.pc + 4 else s.pc + 2 } := by
  simp only [State.skipIf, h]

theorem exec_seVxByte (x : Reg) (kk : Byte) (s : State) :
    exec (.seVxByte x kk) s = .next { s with pc := if s.reg x = kk then s.pc + 4 else s.pc + 2 } :=
  congrArg _ (s.skipIf_eq beq_iff_eq)

theorem exec_sneVxByte (x : Reg) (kk : Byte) (s : State) :
    exec (.sneVxByte x kk) s = .next { s with pc := if s.reg x ≠ kk then s.pc + 4 else s.pc + 2 } :=
  congrArg _ (s.skipIf_eq bne_iff_ne)

theorem exec_seVxVy (x y : Reg) (s : State) :
    exec (.seVxVy x y) s = .next { s with pc := if s.reg x = s.reg y then s.pc + 4 else s.pc + 2 } :=
  congrArg _ (s.skipIf_eq beq_iff_eq)

theorem exec_sneVxVy (x y : Reg) (s : State) :
    exec (.sneVxVy x y) s = .next { s with pc := if s.reg x ≠ s.reg y then s.pc + 4 else s.pc + 2 } :=
  congrArg _ (s.skipIf_eq bne_iff_ne)

/-- Settles O26: each word is read back by its fields, each skip is R85's shared one with the comparison as its test. -/
theorem skipsCompareBytes : Obligations.SkipsCompareBytes := by
  unfold Obligations.SkipsCompareBytes
  intro x y kk s
  refine ⟨⟨decode_seVxByte x kk, exec_seVxByte x kk s⟩, ⟨decode_sneVxByte x kk, exec_sneVxByte x kk s⟩,
    ⟨decode_seVxVy x y, exec_seVxVy x y s⟩, ⟨decode_sneVxVy x y, exec_sneVxVy x y s⟩, fun n h1 h16 => ?_⟩
  obtain ⟨h5, h9⟩ := decode_registerSkips_rejected h1 h16 x y
  rw [wordXYN_eq_ofNat h16] at h5 h9
  exact ⟨⟨_, h5⟩, ⟨_, h9⟩⟩

/-- Settles O24: the target is the zero-extended operand. -/
theorem jumpSetsPc : Obligations.JumpSetsPc := by
  unfold Obligations.JumpSetsPc
  intro nnn s
  exact ⟨decode_jpAddr nnn, by rw [exec_jpAddr, addrOperand_eq]⟩

end Sys2Proof.Machine
end

section
/-! SUPPORT. The decoder on the words of the immediate load and add and of the register copy and logic instructions
(spec/30_encoding.md R64, R65). -/

namespace Sys2Proof

theorem decode_ldVxByte (x : Reg) (kk : Byte) : decode (wordXK 0x6000 x kk) = .ok (.ldVxByte x kk) := by
  simp [decode]

theorem decode_addVxByte (x : Reg) (kk : Byte) : decode (wordXK 0x7000 x kk) = .ok (.addVxByte x kk) := by
  simp [decode]

/-- With a function nibble that fits its field, the word is the major opcode with its nibble, and the register fields between. -/
theorem wordXYN_eq_ofNat_add {base fn : Nat} (hfn : fn < 16) (x y : Reg) :
    wordXYN base x y fn = BitVec.ofNat 16 (base + fn + 0x100 * x.val + 0x10 * y.val) := by
  rw [wordXYN_eq_ofNat hfn]
  congr 1; omega

/-- Major opcode 8 leaves the choice to the function nibble. -/
theorem decode_aluGroup {fn : Nat} (hfn : fn < 16) (x y : Reg) :
    decode (BitVec.ofNat 16 (0x8000 + fn + 0x100 * x.val + 0x10 * y.val)) = decodeAlu (wordXYN 0x8000 x y fn) := by
  rw [← wordXYN_eq_ofNat_add hfn]
  simp [decode]

theorem decodeAlu_ldVxVy (x y : Reg) : decodeAlu (wordXYN 0x8000 x y 0x0) = .ok (.ldVxVy x y) := by simp [decodeAlu]

theorem decodeAlu_orVxVy (x y : Reg) : decodeAlu (wordXYN 0x8000 x y 0x1) = .ok (.orVxVy x y) := by simp [decodeAlu]

theorem decodeAlu_andVxVy (x y : Reg) : decodeAlu (wordXYN 0x8000 x y 0x2) = .ok (.andVxVy x y) := by simp [decodeAlu]

theorem decodeAlu_xorVxVy (x y : Reg) : decodeAlu (wordXYN 0x8000 x y 0x3) = .ok (.xorVxVy x y) := by simp [decodeAlu]

end Sys2Proof
end

section
/-! SUPPORT. The instructions of spec/41_alu.md that write one register and no flag (R100 to R104, R112): each is one register
write and the advance, so the frame of that pair is proved once. -/

namespace Sys2Proof.Machine

/-! ### Writing one register and advancing -/

theorem State.regsBut_setReg_advance (s : State) (x : Reg) (b : Byte) : s.RegsBut (s.setReg x b).advance [x] :=
  fun _ hr => s.setReg_reg_ne b (List.ne_of_not_mem_cons hr)

theorem State.sameBut_setReg_advance (s : State) (x : Reg) (b : Byte) :
    s.SameBut (s.setReg x b).advance [.regs, .pc] := by
  intro p hp
  cases p with
  | regs | pc => simp at hp
  | mem => exact fun _ => rfl
  | _ => rfl

/-- An instruction that writes `b` to `V[x]` and advances, for a property `P` that `b` has: what it leaves in `V[x]`, and the
frame. -/
theorem exists_next_of_setReg_advance {i : Instr} {s : State} {x : Reg} {b : Byte}
    (h : exec i s = .next (s.setReg x b).advance) (P : Byte → Prop) (hb : P b) :
    ∃ t, exec i s = .next t ∧ P (t.reg x) ∧
      s.RegsBut t [x] ∧ t.pc = s.pc + 2 ∧ s.SameBut t [.regs, .pc] :=
  ⟨_, h, by rwa [State.advance_reg, State.setReg_reg_self], s.regsBut_setReg_advance x b, rfl, s.sameBut_setReg_advance x b⟩

/-! ### The meanings -/

theorem exec_ldVxByte (x : Reg) (kk : Byte) (s : State) : exec (.ldVxByte x kk) s = .next (s.setReg x kk).advance := rfl

theorem exec_addVxByte (x : Reg) (kk : Byte) (s : State) :
    exec (.addVxByte x kk) s = .next (s.setReg x (s.reg x + kk)).advance := rfl

theorem exec_ldVxVy (x y : Reg) (s : State) : exec (.ldVxVy x y) s = .next (s.setReg x (s.reg y)).advance := rfl

theorem exec_orVxVy (x y : Reg) (s : State) :
    exec (.orVxVy x y) s = .next (s.setReg x (s.reg x ||| s.reg y)).advance := rfl

theorem exec_andVxVy (x y : Reg) (s : State) :
    exec (.andVxVy x y) s = .next (s.setReg x (s.reg x &&& s.reg y)).advance := rfl

theorem exec_xorVxVy (x y : Reg) (s : State) :
    exec (.xorVxVy x y) s = .next (s.setReg x (s.reg x ^^^ s.reg y)).advance := rfl

/-! ### The statements -/

/-- Settles O31: the function nibble selects the row, and each row writes its value to `V[x]` alone. -/
theorem copyAndLogicWriteOneRegister : Obligations.CopyAndLogicWriteOneRegister := by
  unfold Obligations.CopyAndLogicWriteOneRegister
  intro x y s
  refine ⟨⟨?_, ?_⟩, ⟨?_, ?_⟩, ⟨?_, ?_⟩, ⟨?_, ?_⟩⟩
  · exact (decode_aluGroup (fn := 0) (by decide) x y).trans (decodeAlu_ldVxVy x y)
  · exact exists_next_of_setReg_advance (exec_ldVxVy x y s) (· = s.reg y) rfl
  · exact (decode_aluGroup (fn := 1) (by decide) x y).trans (decodeAlu_orVxVy x y)
  · exact exists_next_of_setReg_advance (exec_orVxVy x y s)
      (fun b => ∀ k, b.getLsbD k = ((s.reg x).getLsbD k || (s.reg y).getLsbD k)) fun _ => BitVec.getLsbD_or
  · exact (decode_aluGroup (fn := 2) (by decide) x y).trans (decodeAlu_andVxVy x y)
  · exact exists_next_of_setReg_advance (exec_andVxVy x y s)
      (fun b => ∀ k, b.getLsbD k = ((s.reg x).getLsbD k && (s.reg y).getLsbD k)) fun _ => BitVec.getLsbD_and
  · exact (decode_aluGroup (fn := 3) (by decide) x y).trans (decodeAlu_xorVxVy x y)
  · exact exists_next_of_setReg_advance (exec_xorVxVy x y s)
      (fun b => ∀ k, b.getLsbD k = ((s.reg x).getLsbD k != (s.reg y).getLsbD k)) fun _ => BitVec.getLsbD_xor

/-- Settles O30: the sum of bytes is the sum modulo 256, and both instructions write `V[x]` alone. -/
theorem immediateLoadAndAdd : Obligations.ImmediateLoadAndAdd := by
  unfold Obligations.ImmediateLoadAndAdd
  intro x kk s
  refine ⟨⟨decode_ldVxByte x kk, ?_⟩, ⟨decode_addVxByte x kk, ?_⟩⟩
  · exact exists_next_of_setReg_advance (exec_ldVxByte x kk s) (· = kk) rfl
  · exact exists_next_of_setReg_advance (exec_addVxByte x kk s)
      (·.toNat = ((s.reg x).toNat + kk.toNat) % 256) (BitVec.toNat_add _ _)

end Sys2Proof.Machine
end

section
/-! SUPPORT. The fields of a word of format XF, and the decoder on the words of the instructions that set the address register from
an operand (spec/30_encoding.md R61, R62, R64, R65). -/

namespace Sys2Proof

/-! ### Format XF -/

@[simp] theorem majorField_wordXF {base fn : Nat} (h : base ≤ 0xF000) (h0 : base % 0x1000 = 0) (hf : fn < 256) (x : Reg) :
    majorField (wordXF base x fn) = base / 0x1000 := by
  rw [majorField_eq, wordXF_toNat h hf]; omega

@[simp] theorem xField_wordXF {base fn : Nat} (h : base ≤ 0xF000) (h0 : base % 0x1000 = 0) (hf : fn < 256) (x : Reg) :
    xField (wordXF base x fn) = x := by
  apply Fin.ext
  rw [xField_val, wordXF_toNat h hf]; omega

@[simp] theorem kkField_wordXF_toNat {base fn : Nat} (h : base ≤ 0xF000) (h0 : base % 0x1000 = 0) (hf : fn < 256) (x : Reg) :
    (kkField (wordXF base x fn)).toNat = fn := by
  rw [kkField_toNat, wordXF_toNat h hf]; omega

/-- The word is the major opcode with its function byte, and the register field between. -/
theorem wordXF_eq_ofNat_add (base : Nat) (x : Reg) (fn : Nat) :
    wordXF base x fn = BitVec.ofNat 16 (base + fn + 0x100 * x.val) := by
  rw [wordXF, Nat.add_right_comm]

/-! ### The decoder -/

theorem decode_ldIAddr (nnn : BitVec 12) : decode (wordA 0xA000 nnn) = .ok (.ldIAddr nnn) := by
  simp [decode]

/-- Major opcode 0xF leaves the choice to the function byte. -/
theorem decode_miscGroup {fn : Nat} (hf : fn < 256) (x : Reg) :
    decode (BitVec.ofNat 16 (0xF000 + fn + 0x100 * x.val)) = decodeMisc (wordXF 0xF000 x fn) := by
  rw [← wordXF_eq_ofNat_add]
  simp [decode, hf]

theorem decodeMisc_addIVx (x : Reg) : decodeMisc (wordXF 0xF000 x 0x1E) = .ok (.addIVx x) := by simp [decodeMisc]

end Sys2Proof
end

section
/-! SUPPORT. The instructions of spec/42_index_memory.md that write the address register and nothing else (R120, R121): each is one
write of `I` and the advance, so the frame of that pair is proved once. -/

namespace Sys2Proof.Machine

/-! ### Writing the address register and advancing -/

theorem State.sameBut_setIndex_advance (s : State) (a : Word) :
    s.SameBut (State.advance { s with i := a }) [.index, .pc] := by
  intro p hp
  cases p with
  | index | pc => simp at hp
  | regs | mem => exact fun _ => rfl
  | _ => rfl

/-- An instruction that writes the address `a` to `I` and advances: the value of `I` as a number, and the frame. -/
theorem exists_next_of_setIndex_advance {i : Instr} {s : State} {a : Word} {n : Nat}
    (h : exec i s = .next (State.advance { s with i := a })) (ha : a.toNat = n) :
    ∃ t, exec i s = .next t ∧ t.i.toNat = n ∧ t.pc = s.pc + 2 ∧ s.SameBut t [.index, .pc] :=
  ⟨_, h, ha, rfl, s.sameBut_setIndex_advance a⟩

/-! ### The meanings -/

theorem exec_ldIAddr (nnn : BitVec 12) (s : State) :
    exec (.ldIAddr nnn) s = .next (State.advance { s with i := addrOperand nnn }) := rfl

theorem exec_addIVx (x : Reg) (s : State) :
    exec (.addIVx x) s = .next (State.advance { s with i := indexSum s.i (s.reg x) }) := rfl

/-! ### The statement -/

/-- Settles O36: `I` becomes the zero-extended operand, or the sum modulo 4096; both instructions write `I` alone. -/
theorem addressRegisterIsSetAndAdded : Obligations.AddressRegisterIsSetAndAdded := by
  unfold Obligations.AddressRegisterIsSetAndAdded
  refine ⟨fun nnn s => ⟨decode_ldIAddr nnn, ?_⟩, fun x s => ⟨?_, ?_⟩⟩
  · exact exists_next_of_setIndex_advance (exec_ldIAddr nnn s) (addrOperand_toNat nnn)
  · exact (decode_miscGroup (fn := 0x1E) (by decide) x).trans (decodeMisc_addIVx x)
  · exact exists_next_of_setIndex_advance (exec_addIVx x s) (indexSum_toNat s.i (s.reg x))

end Sys2Proof.Machine
end

section
/-! SUPPORT. The clear of the display (spec/43_display.md R130) and the statement about it. -/

namespace Sys2Proof

/-- The word of `CLS` is one of the two that major opcode 0 accepts (R64). -/
theorem decode_cls : decode 0x00E0 = .ok .cls := rfl

namespace Machine

theorem exec_cls (s : State) :
    exec .cls s = .next (State.advance { s with fb := Screen.blank, dirty := true }) := rfl

/-- The frame of replacing the display together with its `dirty` bit, and advancing. -/
theorem State.sameBut_setDisplay_advance (s : State) (fb : Screen) (d : Bool) :
    s.SameBut (State.advance { s with fb := fb, dirty := d }) [.fb, .dirty, .pc] := by
  intro p hp
  cases p with
  | fb | dirty | pc => simp at hp
  | regs | mem => exact fun _ => rfl
  | _ => rfl

/-- Settles O42: the display becomes the blank one and `dirty` is set outright, whatever both were. -/
theorem clearTurnsEveryPixelOff : Obligations.ClearTurnsEveryPixelOff := by
  unfold Obligations.ClearTurnsEveryPixelOff
  intro s
  exact ⟨decode_cls, _, exec_cls s, Screen.pixel_blank, rfl, State.advance_pc _, s.sameBut_setDisplay_advance _ _⟩

end Machine
end Sys2Proof
end

section
/-! SUPPORT. The decoder on the words of the key wait and of the timer moves (spec/30_encoding.md R64, R65). -/

namespace Sys2Proof

theorem decodeMisc_ldVxDt (x : Reg) : decodeMisc (wordXF 0xF000 x 0x07) = .ok (.ldVxDt x) := by simp [decodeMisc]

theorem decodeMisc_ldVxK (x : Reg) : decodeMisc (wordXF 0xF000 x 0x0A) = .ok (.ldVxK x) := by simp [decodeMisc]

theorem decodeMisc_ldDtVx (x : Reg) : decodeMisc (wordXF 0xF000 x 0x15) = .ok (.ldDtVx x) := by simp [decodeMisc]

theorem decodeMisc_ldStVx (x : Reg) : decodeMisc (wordXF 0xF000 x 0x18) = .ok (.ldStVx x) := by simp [decodeMisc]

end Sys2Proof
end

section
/-! SUPPORT. The key wait and the timer moves of spec/44_keypad_timers.md (R143, R145 to R147): what each answers, the frame of
writing the timers, and the statements about them. -/

namespace Sys2Proof.Machine

/-! ### Writing the timers and advancing -/

/-- Writing both timers and advancing leaves every part alone but `PC` and the timers that change, so the one frame serves an
instruction that writes either. -/
theorem State.sameBut_setTimers_advance (s : State) {a b : Byte} {ps : List Part}
    (hpc : .pc ∈ ps) (hdt : .dt ∉ ps → a = s.dt) (hst : .st ∉ ps → b = s.st) :
    s.SameBut (State.advance { s with dt := a, st := b }) ps := by
  intro p hp
  cases p with
  | pc => exact absurd hpc hp
  | dt => exact hdt hp
  | st => exact hst hp
  | regs | mem => exact fun _ => rfl
  | _ => rfl

/-! ### The meanings -/

theorem exec_ldVxDt (x : Reg) (s : State) : exec (.ldVxDt x) s = .next (s.setReg x s.dt).advance := rfl

theorem exec_ldDtVx (x : Reg) (s : State) : exec (.ldDtVx x) s = .next (State.advance { s with dt := s.reg x }) := rfl

theorem exec_ldStVx (x : Reg) (s : State) : exec (.ldStVx x) s = .next (State.advance { s with st := s.reg x }) := rfl

/-- With no key pressed the wait answers the state it was given, `PC` included. -/
theorem exec_ldVxK_of_lowestKey_none {s : State} (h : s.lowestKey = none) (x : Reg) : exec (.ldVxK x) s = .next s := by
  simp only [exec, execLdVxK, h]

theorem exec_ldVxK_of_lowestKey_some {s : State} {k : Nat} (h : s.lowestKey = some k) (x : Reg) :
    exec (.ldVxK x) s = .next (s.setReg x (BitVec.ofNat 8 k)).advance := by
  simp only [exec, execLdVxK, h]

/-! ### The statements -/

/-- Settles O47: the lowest pressed key decides between the wait and the write of its index, which fits a byte. -/
theorem waitForKeyRetries : Obligations.WaitForKeyRetries := by
  unfold Obligations.WaitForKeyRetries
  intro x s
  refine ⟨?_, fun hnone => ?_, fun k hk hlower => ?_⟩
  · exact (decode_miscGroup (fn := 0x0A) (by decide) x).trans (decodeMisc_ldVxK x)
  · exact exec_ldVxK_of_lowestKey_none (lowestKey_eq_none.mpr hnone) x
  · have hlowest : s.lowestKey = some k.val := lowestKey_eq_some.mpr ⟨k.isLt, hk, hlower⟩
    have hbyte : (BitVec.ofNat 8 k.val).toNat = k.val := by rw [BitVec.toNat_ofNat, Nat.mod_eq_of_lt (by omega)]
    exact exists_next_of_setReg_advance (exec_ldVxK_of_lowestKey_some hlowest x) (·.toNat = k.val) hbyte

/-- Settles O48: the read of `DT` is one register write, and each timer write leaves the other timer as it was. -/
theorem timerMovesAreUnscaled : Obligations.TimerMovesAreUnscaled := by
  unfold Obligations.TimerMovesAreUnscaled
  intro x s
  refine ⟨⟨?_, ?_⟩, ⟨?_, ?_⟩, ⟨?_, ?_⟩⟩
  · exact (decode_miscGroup (fn := 0x07) (by decide) x).trans (decodeMisc_ldVxDt x)
  · exact exists_next_of_setReg_advance (exec_ldVxDt x s) (· = s.dt) rfl
  · exact (decode_miscGroup (fn := 0x15) (by decide) x).trans (decodeMisc_ldDtVx x)
  · exact ⟨_, exec_ldDtVx x s, rfl, rfl, s.sameBut_setTimers_advance (b := s.st) (by simp) (by simp) fun _ => rfl⟩
  · exact (decode_miscGroup (fn := 0x18) (by decide) x).trans (decodeMisc_ldStVx x)
  · exact ⟨_, exec_ldStVx x s, rfl, rfl, s.sameBut_setTimers_advance (a := s.dt) (by simp) (fun _ => rfl) (by simp)⟩

end Sys2Proof.Machine
end

section
/-! SUPPORT. The `tick` event (spec/60_exceptions.md R162): what it leaves in each timer, its frame, and the statement about it. -/

namespace Sys2Proof.Machine

@[simp] theorem State.tick_dt (s : State) : s.tick.dt = tickDown s.dt := rfl

@[simp] theorem State.tick_st (s : State) : s.tick.st = tickDown s.st := rfl

theorem State.sameBut_tick (s : State) : s.SameBut s.tick [.dt, .st] := by
  intro p hp
  cases p with
  | dt | st => simp at hp
  | regs | mem => exact fun _ => rfl
  | _ => rfl

/-- Settles O49: each timer is a down-counter floored at 0, and the event writes the two timers alone. -/
theorem tickCountsBothTimersDown : Obligations.TickCountsBothTimersDown := by
  unfold Obligations.TickCountsBothTimersDown
  intro s
  refine ⟨?_, ?_, s.sameBut_tick⟩
  · rw [State.tick_dt, tickDown_toNat]
  · rw [State.tick_st, tickDown_toNat]

end Sys2Proof.Machine
end

section
/-! SUPPORT. The decoder on the words of the instructions not treated above, and with them the decoder on the word of every
instruction (spec/30_encoding.md R64, R65). -/

namespace Sys2Proof

theorem decode_ret : decode 0x00EE = .ok .ret := rfl

theorem decode_callAddr (nnn : BitVec 12) : decode (wordA 0x2000 nnn) = .ok (.callAddr nnn) := by simp [decode]

theorem decode_jpV0Addr (nnn : BitVec 12) : decode (wordA 0xB000 nnn) = .ok (.jpV0Addr nnn) := by simp [decode]

theorem decode_rndVxByte (x : Reg) (kk : Byte) : decode (wordXK 0xC000 x kk) = .ok (.rndVxByte x kk) := by simp [decode]

theorem decode_drwVxVyNibble {n : Nat} (hn : n < 16) (x y : Reg) :
    decode (wordXYN 0xD000 x y n) = .ok (.drwVxVyNibble x y n) := by
  simp [decode, Nat.mod_eq_of_lt hn]

theorem decodeAlu_addVxVy (x y : Reg) : decodeAlu (wordXYN 0x8000 x y 0x4) = .ok (.addVxVy x y) := by simp [decodeAlu]

theorem decodeAlu_subVxVy (x y : Reg) : decodeAlu (wordXYN 0x8000 x y 0x5) = .ok (.subVxVy x y) := by simp [decodeAlu]

theorem decodeAlu_shrVx (x y : Reg) : decodeAlu (wordXYN 0x8000 x y 0x6) = .ok (.shrVx x y) := by simp [decodeAlu]

theorem decodeAlu_subnVxVy (x y : Reg) : decodeAlu (wordXYN 0x8000 x y 0x7) = .ok (.subnVxVy x y) := by simp [decodeAlu]

theorem decodeAlu_shlVx (x y : Reg) : decodeAlu (wordXYN 0x8000 x y 0xE) = .ok (.shlVx x y) := by simp [decodeAlu]

theorem decodeKey_skpVx (x : Reg) : decodeKey (wordXF 0xE000 x 0x9E) = .ok (.skpVx x) := by simp [decodeKey]

theorem decodeKey_sknpVx (x : Reg) : decodeKey (wordXF 0xE000 x 0xA1) = .ok (.sknpVx x) := by simp [decodeKey]

theorem decodeMisc_ldFVx (x : Reg) : decodeMisc (wordXF 0xF000 x 0x29) = .ok (.ldFVx x) := by simp [decodeMisc]

theorem decodeMisc_ldBVx (x : Reg) : decodeMisc (wordXF 0xF000 x 0x33) = .ok (.ldBVx x) := by simp [decodeMisc]

theorem decodeMisc_ldMemVx (x : Reg) : decodeMisc (wordXF 0xF000 x 0x55) = .ok (.ldMemVx x) := by simp [decodeMisc]

theorem decodeMisc_ldVxMem (x : Reg) : decodeMisc (wordXF 0xF000 x 0x65) = .ok (.ldVxMem x) := by simp [decodeMisc]

/-! ### The groups whose low bits select the operation, on the encoder's words -/

theorem decode_wordXYN_alu (x y : Reg) (fn : Nat) :
    decode (wordXYN 0x8000 x y fn) = decodeAlu (wordXYN 0x8000 x y fn) := by
  simp [decode]

theorem decode_wordXF_key {fn : Nat} (hf : fn < 256) (x : Reg) :
    decode (wordXF 0xE000 x fn) = decodeKey (wordXF 0xE000 x fn) := by
  simp [decode, hf]

theorem decode_wordXF_misc {fn : Nat} (hf : fn < 256) (x : Reg) :
    decode (wordXF 0xF000 x fn) = decodeMisc (wordXF 0xF000 x fn) := by
  simp [decode, hf]

/-- Major opcode 0xE leaves the choice to the function byte. -/
theorem decode_keyGroup {fn : Nat} (hf : fn < 256) (x : Reg) :
    decode (BitVec.ofNat 16 (0xE000 + fn + 0x100 * x.val)) = decodeKey (wordXF 0xE000 x fn) := by
  rw [← wordXF_eq_ofNat_add]
  exact decode_wordXF_key hf x

/-- The decoder undoes the encoder, row by row of the opcode map. -/
theorem decode_encode : ∀ {i : Instr}, i.wellFormed = true → decode (encode i) = .ok i
  | .cls, _ => decode_cls
  | .ret, _ => decode_ret
  | .jpAddr nnn, _ => decode_jpAddr nnn
  | .callAddr nnn, _ => decode_callAddr nnn
  | .seVxByte x kk, _ => decode_seVxByte x kk
  | .sneVxByte x kk, _ => decode_sneVxByte x kk
  | .seVxVy x y, _ => decode_seVxVy x y
  | .ldVxByte x kk, _ => decode_ldVxByte x kk
  | .addVxByte x kk, _ => decode_addVxByte x kk
  | .ldVxVy x y, _ => (decode_wordXYN_alu x y _).trans (decodeAlu_ldVxVy x y)
  | .orVxVy x y, _ => (decode_wordXYN_alu x y _).trans (decodeAlu_orVxVy x y)
  | .andVxVy x y, _ => (decode_wordXYN_alu x y _).trans (decodeAlu_andVxVy x y)
  | .xorVxVy x y, _ => (decode_wordXYN_alu x y _).trans (decodeAlu_xorVxVy x y)
  | .addVxVy x y, _ => (decode_wordXYN_alu x y _).trans (decodeAlu_addVxVy x y)
  | .subVxVy x y, _ => (decode_wordXYN_alu x y _).trans (decodeAlu_subVxVy x y)
  | .shrVx x y, _ => (decode_wordXYN_alu x y _).trans (decodeAlu_shrVx x y)
  | .subnVxVy x y, _ => (decode_wordXYN_alu x y _).trans (decodeAlu_subnVxVy x y)
  | .shlVx x y, _ => (decode_wordXYN_alu x y _).trans (decodeAlu_shlVx x y)
  | .sneVxVy x y, _ => decode_sneVxVy x y
  | .ldIAddr nnn, _ => decode_ldIAddr nnn
  | .jpV0Addr nnn, _ => decode_jpV0Addr nnn
  | .rndVxByte x kk, _ => decode_rndVxByte x kk
  | .drwVxVyNibble x y _, h => decode_drwVxVyNibble (of_decide_eq_true h) x y
  | .skpVx x, _ => (decode_wordXF_key (by decide) x).trans (decodeKey_skpVx x)
  | .sknpVx x, _ => (decode_wordXF_key (by decide) x).trans (decodeKey_sknpVx x)
  | .ldVxDt x, _ => (decode_wordXF_misc (by decide) x).trans (decodeMisc_ldVxDt x)
  | .ldVxK x, _ => (decode_wordXF_misc (by decide) x).trans (decodeMisc_ldVxK x)
  | .ldDtVx x, _ => (decode_wordXF_misc (by decide) x).trans (decodeMisc_ldDtVx x)
  | .ldStVx x, _ => (decode_wordXF_misc (by decide) x).trans (decodeMisc_ldStVx x)
  | .addIVx x, _ => (decode_wordXF_misc (by decide) x).trans (decodeMisc_addIVx x)
  | .ldFVx x, _ => (decode_wordXF_misc (by decide) x).trans (decodeMisc_ldFVx x)
  | .ldBVx x, _ => (decode_wordXF_misc (by decide) x).trans (decodeMisc_ldBVx x)
  | .ldMemVx x, _ => (decode_wordXF_misc (by decide) x).trans (decodeMisc_ldMemVx x)
  | .ldVxMem x, _ => (decode_wordXF_misc (by decide) x).trans (decodeMisc_ldVxMem x)

/-- Settles O1: the decoder dispatches on the major opcode and the function bits that the encoder put into the word. -/
theorem decodeOfEncodeIsTheInstruction : Obligations.DecodeOfEncodeIsTheInstruction := by
  unfold Obligations.DecodeOfEncodeIsTheInstruction
  exact fun _ => decode_encode

end Sys2Proof
end

section
/-! SUPPORT. A word is put together again from its fields (spec/30_encoding.md R62), which gives the inverse of the decoder and the
words that satisfy a row of the opcode map (R65). -/

namespace Sys2Proof

theorem majorField_lt (op : Word) : majorField op < 16 := by
  have := op.isLt
  rw [majorField_eq]; omega

theorem wordA_fields {op : Word} {k : Nat} (hk : majorField op = k) : wordA (k * 0x1000) (nnnField op) = op := by
  have := op.isLt
  rw [majorField_eq] at hk
  apply BitVec.eq_of_toNat_eq
  rw [wordA_toNat (by omega), nnnField_toNat]; omega

theorem wordXK_fields {op : Word} {k : Nat} (hk : majorField op = k) :
    wordXK (k * 0x1000) (xField op) (kkField op) = op := by
  have := op.isLt
  rw [majorField_eq] at hk
  apply BitVec.eq_of_toNat_eq
  rw [wordXK_toNat (by omega), xField_val, kkField_toNat]; omega

theorem wordXYN_fields {op : Word} {k n : Nat} (hk : majorField op = k) (hn : nField op = n) :
    wordXYN (k * 0x1000) (xField op) (yField op) n = op := by
  have := op.isLt
  rw [majorField_eq] at hk
  rw [nField_eq] at hn
  apply BitVec.eq_of_toNat_eq
  rw [wordXYN_toNat (by omega), xField_val, yField_val]; omega

theorem wordXF_fields {op : Word} {k fn : Nat} (hk : majorField op = k) (hfn : (kkField op).toNat = fn) :
    wordXF (k * 0x1000) (xField op) fn = op := by
  have := op.isLt
  rw [majorField_eq] at hk
  rw [kkField_toNat] at hfn
  apply BitVec.eq_of_toNat_eq
  rw [wordXF_toNat (by omega) (by omega), xField_val]; omega

/-! ### The encoder undoes the decoder -/

theorem encode_of_decodeZero {op : Word} {i : Instr} (h : decodeZero op = .ok i) : i.wellFormed = true ∧ encode i = op := by
  unfold decodeZero at h
  split at h
  · cases h; exact ⟨rfl, by simp_all [encode]⟩
  · split at h
    · cases h; exact ⟨rfl, by simp_all [encode]⟩
    · cases h

theorem encode_of_decodeAlu {op : Word} {i : Instr} (hk : majorField op = 8) (h : decodeAlu op = .ok i) :
    i.wellFormed = true ∧ encode i = op := by
  unfold decodeAlu at h
  split at h <;> cases h <;> exact ⟨rfl, wordXYN_fields hk ‹_›⟩

theorem encode_of_decodeKey {op : Word} {i : Instr} (hk : majorField op = 14) (h : decodeKey op = .ok i) :
    i.wellFormed = true ∧ encode i = op := by
  unfold decodeKey at h
  split at h <;> cases h <;> exact ⟨rfl, wordXF_fields hk ‹_›⟩

theorem encode_of_decodeMisc {op : Word} {i : Instr} (hk : majorField op = 15) (h : decodeMisc op = .ok i) :
    i.wellFormed = true ∧ encode i = op := by
  unfold decodeMisc at h
  split at h <;> cases h <;> exact ⟨rfl, wordXF_fields hk ‹_›⟩

theorem encode_of_decode {op : Word} {i : Instr} (h : decode op = .ok i) : i.wellFormed = true ∧ encode i = op := by
  have hlt := majorField_lt op
  unfold decode at h
  split at h
  case h_1 => exact encode_of_decodeZero h
  case h_2 hk => cases h; exact ⟨rfl, wordA_fields hk⟩
  case h_3 hk => cases h; exact ⟨rfl, wordA_fields hk⟩
  case h_4 hk => cases h; exact ⟨rfl, wordXK_fields hk⟩
  case h_5 hk => cases h; exact ⟨rfl, wordXK_fields hk⟩
  case h_6 hk =>
    split at h
    · cases h; exact ⟨rfl, wordXYN_fields hk ‹_›⟩
    · cases h
  case h_7 hk => cases h; exact ⟨rfl, wordXK_fields hk⟩
  case h_8 hk => cases h; exact ⟨rfl, wordXK_fields hk⟩
  case h_9 hk => exact encode_of_decodeAlu hk h
  case h_10 hk =>
    split at h
    · cases h; exact ⟨rfl, wordXYN_fields hk ‹_›⟩
    · cases h
  case h_11 hk => cases h; exact ⟨rfl, wordA_fields hk⟩
  case h_12 hk => cases h; exact ⟨rfl, wordA_fields hk⟩
  case h_13 hk => cases h; exact ⟨rfl, wordXK_fields hk⟩
  case h_14 hk => cases h; exact ⟨decide_eq_true (nField_lt op), wordXYN_fields hk rfl⟩
  case h_15 hk => exact encode_of_decodeKey hk h
  case h_16 => exact encode_of_decodeMisc (by grind) h

/-- Settles O2: each branch of the decoder keeps every field of the word. -/
theorem encodeOfDecodeIsTheWord : Obligations.EncodeOfDecodeIsTheWord := by
  unfold Obligations.EncodeOfDecodeIsTheWord
  exact fun _ _ => encode_of_decode

/-! ### The rows of the opcode map -/

/-- A mask that keeps the major opcode shows it in the masked word. -/
theorem majorField_of_and {op mask m : Word} (h : op &&& mask = m) (hmask : mask.extractLsb' 12 4 = BitVec.allOnes 4) :
    majorField op = majorField m := by
  rw [← h, majorField, majorField, BitVec.extractLsb'_and, hmask, BitVec.and_allOnes]

theorem nField_of_and {op mask m : Word} (h : op &&& mask = m) (hmask : mask.extractLsb' 0 4 = BitVec.allOnes 4) :
    nField op = nField m := by
  rw [← h, nField, nField, BitVec.extractLsb'_and, hmask, BitVec.and_allOnes]

theorem kkField_of_and {op mask m : Word} (h : op &&& mask = m) (hmask : mask.extractLsb' 0 8 = BitVec.allOnes 8) :
    kkField op = kkField m := by
  rw [← h, kkField, kkField, BitVec.extractLsb'_and, hmask, BitVec.and_allOnes]

/-! A word that satisfies the row whose match column is the word with its operand fields 0. -/

theorem wordA_of_row {op : Word} {base : Nat} (h : op &&& 0xF000 = BitVec.ofNat 16 base)
    (hbase : majorField (BitVec.ofNat 16 base) * 0x1000 = base := by rfl) : wordA base (nnnField op) = op := by
  rw [← hbase, ← h]
  exact wordA_fields (majorField_of_and rfl rfl)

theorem wordXK_of_row {op : Word} {base : Nat} (h : op &&& 0xF000 = BitVec.ofNat 16 base)
    (hbase : majorField (BitVec.ofNat 16 base) * 0x1000 = base := by rfl) : wordXK base (xField op) (kkField op) = op := by
  rw [← hbase, ← h]
  exact wordXK_fields (majorField_of_and rfl rfl)

theorem wordXYN_of_row {op : Word} {base fn : Nat} (h : op &&& 0xF00F = BitVec.ofNat 16 (base + fn))
    (hbase : majorField (BitVec.ofNat 16 (base + fn)) * 0x1000 = base := by rfl)
    (hfn : nField (BitVec.ofNat 16 (base + fn)) = fn := by rfl) : wordXYN base (xField op) (yField op) fn = op := by
  rw [← h] at hbase hfn
  rw [← hbase]
  exact wordXYN_fields (majorField_of_and rfl rfl) ((nField_of_and rfl rfl).trans hfn)

theorem wordXF_of_row {op : Word} {base fn : Nat} (h : op &&& 0xF0FF = BitVec.ofNat 16 (base + fn))
    (hbase : majorField (BitVec.ofNat 16 (base + fn)) * 0x1000 = base := by rfl)
    (hfn : (kkField (BitVec.ofNat 16 (base + fn))).toNat = fn := by rfl) : wordXF base (xField op) fn = op := by
  rw [← h] at hbase hfn
  rw [← hbase]
  exact wordXF_fields (majorField_of_and rfl rfl) ((congrArg _ (kkField_of_and rfl rfl)).trans hfn)

/-- A word that satisfies a row is the word of an instruction of that row. -/
theorem exists_encode_of_row {op : Word} : ∀ i : Instr, op &&& (opcodeRow i).2 = (opcodeRow i).1 →
    ∃ j : Instr, j.wellFormed = true ∧ encode j = op ∧ opcodeRow j = opcodeRow i
  | .cls, h => ⟨.cls, rfl, (h.symm.trans BitVec.and_allOnes : (0x00E0 : Word) = op), rfl⟩
  | .ret, h => ⟨.ret, rfl, (h.symm.trans BitVec.and_allOnes : (0x00EE : Word) = op), rfl⟩
  | .jpAddr _, h => ⟨.jpAddr (nnnField op), rfl, wordA_of_row h, rfl⟩
  | .callAddr _, h => ⟨.callAddr (nnnField op), rfl, wordA_of_row h, rfl⟩
  | .seVxByte _ _, h => ⟨.seVxByte (xField op) (kkField op), rfl, wordXK_of_row h, rfl⟩
  | .sneVxByte _ _, h => ⟨.sneVxByte (xField op) (kkField op), rfl, wordXK_of_row h, rfl⟩
  | .seVxVy _ _, h => ⟨.seVxVy (xField op) (yField op), rfl, wordXYN_of_row h, rfl⟩
  | .ldVxByte _ _, h => ⟨.ldVxByte (xField op) (kkField op), rfl, wordXK_of_row h, rfl⟩
  | .addVxByte _ _, h => ⟨.addVxByte (xField op) (kkField op), rfl, wordXK_of_row h, rfl⟩
  | .ldVxVy _ _, h => ⟨.ldVxVy (xField op) (yField op), rfl, wordXYN_of_row h, rfl⟩
  | .orVxVy _ _, h => ⟨.orVxVy (xField op) (yField op), rfl, wordXYN_of_row h, rfl⟩
  | .andVxVy _ _, h => ⟨.andVxVy (xField op) (yField op), rfl, wordXYN_of_row h, rfl⟩
  | .xorVxVy _ _, h => ⟨.xorVxVy (xField op) (yField op), rfl, wordXYN_of_row h, rfl⟩
  | .addVxVy _ _, h => ⟨.addVxVy (xField op) (yField op), rfl, wordXYN_of_row h, rfl⟩
  | .subVxVy _ _, h => ⟨.subVxVy (xField op) (yField op), rfl, wordXYN_of_row h, rfl⟩
  | .shrVx _ _, h => ⟨.shrVx (xField op) (yField op), rfl, wordXYN_of_row h, rfl⟩
  | .subnVxVy _ _, h => ⟨.subnVxVy (xField op) (yField op), rfl, wordXYN_of_row h, rfl⟩
  | .shlVx _ _, h => ⟨.shlVx (xField op) (yField op), rfl, wordXYN_of_row h, rfl⟩
  | .sneVxVy _ _, h => ⟨.sneVxVy (xField op) (yField op), rfl, wordXYN_of_row h, rfl⟩
  | .ldIAddr _, h => ⟨.ldIAddr (nnnField op), rfl, wordA_of_row h, rfl⟩
  | .jpV0Addr _, h => ⟨.jpV0Addr (nnnField op), rfl, wordA_of_row h, rfl⟩
  | .rndVxByte _ _, h => ⟨.rndVxByte (xField op) (kkField op), rfl, wordXK_of_row h, rfl⟩
  | .drwVxVyNibble _ _ _, h => ⟨.drwVxVyNibble (xField op) (yField op) (nField op), decide_eq_true (nField_lt op),
      wordXYN_fields (k := 13) (majorField_of_and (mask := 0xF000) (m := 0xD000) h rfl) rfl, rfl⟩
  | .skpVx _, h => ⟨.skpVx (xField op), rfl, wordXF_of_row h, rfl⟩
  | .sknpVx _, h => ⟨.sknpVx (xField op), rfl, wordXF_of_row h, rfl⟩
  | .ldVxDt _, h => ⟨.ldVxDt (xField op), rfl, wordXF_of_row h, rfl⟩
  | .ldVxK _, h => ⟨.ldVxK (xField op), rfl, wordXF_of_row h, rfl⟩
  | .ldDtVx _, h => ⟨.ldDtVx (xField op), rfl, wordXF_of_row h, rfl⟩
  | .ldStVx _, h => ⟨.ldStVx (xField op), rfl, wordXF_of_row h, rfl⟩
  | .addIVx _, h => ⟨.addIVx (xField op), rfl, wordXF_of_row h, rfl⟩
  | .ldFVx _, h => ⟨.ldFVx (xField op), rfl, wordXF_of_row h, rfl⟩
  | .ldBVx _, h => ⟨.ldBVx (xField op), rfl, wordXF_of_row h, rfl⟩
  | .ldMemVx _, h => ⟨.ldMemVx (xField op), rfl, wordXF_of_row h, rfl⟩
  | .ldVxMem _, h => ⟨.ldVxMem (xField op), rfl, wordXF_of_row h, rfl⟩

/-- The word of every instruction satisfies the instruction's row. -/
theorem encode_and_mask : ∀ i : Instr, encode i &&& (opcodeRow i).2 = (opcodeRow i).1
  | .cls => Laws.MatchesOpcodeRow.cls
  | .ret => Laws.MatchesOpcodeRow.ret
  | .jpAddr nnn => Laws.MatchesOpcodeRow.jpAddr nnn
  | .callAddr nnn => Laws.MatchesOpcodeRow.callAddr nnn
  | .seVxByte x kk => Laws.MatchesOpcodeRow.seVxByte x kk
  | .sneVxByte x kk => Laws.MatchesOpcodeRow.sneVxByte x kk
  | .seVxVy x y => Laws.MatchesOpcodeRow.seVxVy x y
  | .ldVxByte x kk => Laws.MatchesOpcodeRow.ldVxByte x kk
  | .addVxByte x kk => Laws.MatchesOpcodeRow.addVxByte x kk
  | .ldVxVy x y => Laws.MatchesOpcodeRow.ldVxVy x y
  | .orVxVy x y => Laws.MatchesOpcodeRow.orVxVy x y
  | .andVxVy x y => Laws.MatchesOpcodeRow.andVxVy x y
  | .xorVxVy x y => Laws.MatchesOpcodeRow.xorVxVy x y
  | .addVxVy x y => Laws.MatchesOpcodeRow.addVxVy x y
  | .subVxVy x y => Laws.MatchesOpcodeRow.subVxVy x y
  | .shrVx x y => Laws.MatchesOpcodeRow.shrVx x y
  | .subnVxVy x y => Laws.MatchesOpcodeRow.subnVxVy x y
  | .shlVx x y => Laws.MatchesOpcodeRow.shlVx x y
  | .sneVxVy x y => Laws.MatchesOpcodeRow.sneVxVy x y
  | .ldIAddr nnn => Laws.MatchesOpcodeRow.ldIAddr nnn
  | .jpV0Addr nnn => Laws.MatchesOpcodeRow.jpV0Addr nnn
  | .rndVxByte x kk => Laws.MatchesOpcodeRow.rndVxByte x kk
  | .drwVxVyNibble x y n => Laws.MatchesOpcodeRow.drwVxVyNibble x y n
  | .skpVx x => Laws.MatchesOpcodeRow.skpVx x
  | .sknpVx x => Laws.MatchesOpcodeRow.sknpVx x
  | .ldVxDt x => Laws.MatchesOpcodeRow.ldVxDt x
  | .ldVxK x => Laws.MatchesOpcodeRow.ldVxK x
  | .ldDtVx x => Laws.MatchesOpcodeRow.ldDtVx x
  | .ldStVx x => Laws.MatchesOpcodeRow.ldStVx x
  | .addIVx x => Laws.MatchesOpcodeRow.addIVx x
  | .ldFVx x => Laws.MatchesOpcodeRow.ldFVx x
  | .ldBVx x => Laws.MatchesOpcodeRow.ldBVx x
  | .ldMemVx x => Laws.MatchesOpcodeRow.ldMemVx x
  | .ldVxMem x => Laws.MatchesOpcodeRow.ldVxMem x

/-- Settles O3: a decoded word is the encoder's, which is in its row; and a word in a row is the encoder's of that row, which the
decoder gives back. -/
theorem decodeFollowsTheOpcodeMap : Obligations.DecodeFollowsTheOpcodeMap := by
  unfold Obligations.DecodeFollowsTheOpcodeMap
  refine ⟨fun op i h => ?_, fun op i h => ?_⟩
  · obtain ⟨-, rfl⟩ := encode_of_decode h
    exact encode_and_mask i
  · obtain ⟨j, hwf, rfl, hrow⟩ := exists_encode_of_row i h
    exact ⟨j, decode_encode hwf, hrow⟩

/-! ### The rejected words -/

theorem decodeZero_rejects_iff {op : Word} : (∃ r, decodeZero op = .error r) ↔ op ≠ 0x00E0 ∧ op ≠ 0x00EE := by
  unfold decodeZero
  split_ifs <;> simp_all

theorem decodeAlu_rejects_iff {op : Word} :
    (∃ r, decodeAlu op = .error r) ↔ nField op ∈ [0x8, 0x9, 0xA, 0xB, 0xC, 0xD, 0xF] := by
  have hlt := nField_lt op
  unfold decodeAlu
  generalize nField op = n at *
  interval_cases n <;> simp

theorem decodeKey_rejects_iff {op : Word} : (∃ r, decodeKey op = .error r) ↔ (kkField op).toNat ∉ [0x9E, 0xA1] := by
  unfold decodeKey
  split <;> simp_all

theorem decodeMisc_rejects_iff {op : Word} : (∃ r, decodeMisc op = .error r) ↔
    (kkField op).toNat ∉ [0x07, 0x0A, 0x15, 0x18, 0x1E, 0x29, 0x33, 0x55, 0x65] := by
  unfold decodeMisc
  split <;> simp_all

/-- The compare of two registers, major opcode 5 or 9, leaves every nonzero low nibble out. -/
theorem registerSkip_rejects_iff {n : Nat} {i : Instr} {e : Reject} :
    (∃ r, (if n = 0 then .ok i else .error e : Except Reject Instr) = .error r) ↔ n ≠ 0 := by
  split_ifs with h <;> simp [h]

/-- The rejected words by their fields. -/
theorem decode_rejects_iff {op : Word} : (∃ r, decode op = .error r) ↔
    (majorField op = 0x0 ∧ op ≠ 0x00E0 ∧ op ≠ 0x00EE) ∨
    (majorField op = 0x5 ∧ nField op ≠ 0) ∨
    (majorField op = 0x8 ∧ nField op ∈ [0x8, 0x9, 0xA, 0xB, 0xC, 0xD, 0xF]) ∨
    (majorField op = 0x9 ∧ nField op ≠ 0) ∨
    (majorField op = 0xE ∧ (kkField op).toNat ∉ [0x9E, 0xA1]) ∨
    (majorField op = 0xF ∧ (kkField op).toNat ∉ [0x07, 0x0A, 0x15, 0x18, 0x1E, 0x29, 0x33, 0x55, 0x65]) := by
  rw [← decodeZero_rejects_iff, ← decodeAlu_rejects_iff, ← decodeKey_rejects_iff, ← decodeMisc_rejects_iff]
  have hlt := majorField_lt op
  unfold decode
  generalize majorField op = k at *
  interval_cases k <;> simp [registerSkip_rejects_iff]

/-- Settles O4: the fields of a rejected word, as numbers. -/
theorem rejectedWordsAreTheIllegalOnes : Obligations.RejectedWordsAreTheIllegalOnes := by
  unfold Obligations.RejectedWordsAreTheIllegalOnes
  intro op
  have hzero : op.toNat / 4096 = 0 ↔ op.toNat < 0x1000 := by omega
  rw [decode_rejects_iff, majorField_eq, nField_eq, kkField_toNat, hzero]

end Sys2Proof
end

section
/-! SUPPORT. The arithmetic and shift instructions of spec/41_alu.md that write VF as a flag (R105 to R110): each is one result, one
flag and the advance, so the frame of the three is proved once. -/

namespace Sys2Proof.Machine

theorem State.regsBut_writeFlagged_advance (s : State) (x : Reg) (b : Byte) (c : Bool) :
    s.RegsBut (s.writeFlagged x b c).advance [x, vf] := by
  intro r hr
  simp only [List.mem_cons, List.not_mem_nil, or_false, not_or] at hr
  rw [State.advance_reg, State.writeFlagged_reg, if_neg hr.2, if_neg hr.1]

theorem State.sameBut_writeFlagged_advance (s : State) (x : Reg) (b : Byte) (c : Bool) :
    s.SameBut (s.writeFlagged x b c).advance [.regs, .pc] := by
  intro p hp
  cases p with
  | regs | pc => simp at hp
  | mem => exact fun _ => rfl
  | _ => rfl

/-- An instruction that writes the result `b` to `V[x]`, then the flag `c` to VF, and advances: what VF holds, what `V[x]` holds
when it is not VF, and the frame. -/
theorem exists_next_of_writeFlagged_advance {i : Instr} {s : State} {x : Reg} {b : Byte} {c : Bool}
    (h : exec i s = .next (s.writeFlagged x b c).advance) {F R : Byte → Prop} (hflag : F (flagByte c)) (hresult : R b) :
    ∃ t, exec i s = .next t ∧ F (t.reg vf) ∧ (x ≠ vf → R (t.reg x)) ∧
      s.RegsBut t [x, vf] ∧ t.pc = s.pc + 2 ∧ s.SameBut t [.regs, .pc] := by
  refine ⟨_, h, ?_, fun hx => ?_, s.regsBut_writeFlagged_advance x b c, rfl, s.sameBut_writeFlagged_advance x b c⟩
  · rwa [State.advance_reg, State.writeFlagged_reg, if_pos rfl]
  · rwa [State.advance_reg, State.writeFlagged_reg, if_neg hx, if_pos rfl]

/-! ### The meanings -/

theorem exec_addVxVy (x y : Reg) (s : State) : exec (.addVxVy x y) s =
    .next (s.writeFlagged x (s.reg x + s.reg y) (carryFlag (s.reg x) (s.reg y))).advance := rfl

theorem exec_subVxVy (x y : Reg) (s : State) : exec (.subVxVy x y) s =
    .next (s.writeFlagged x (s.reg x - s.reg y) (notBorrowFlag (s.reg x) (s.reg y))).advance := rfl

theorem exec_shrVx (x y : Reg) (s : State) : exec (.shrVx x y) s =
    .next (s.writeFlagged x (s.reg x >>> 1) (lowBitFlag (s.reg x))).advance := rfl

theorem exec_subnVxVy (x y : Reg) (s : State) : exec (.subnVxVy x y) s =
    .next (s.writeFlagged x (s.reg y - s.reg x) (notBorrowFlag (s.reg y) (s.reg x))).advance := rfl

theorem exec_shlVx (x y : Reg) (s : State) : exec (.shlVx x y) s =
    .next (s.writeFlagged x (s.reg x <<< 1) (highBitFlag (s.reg x))).advance := rfl

/-! ### The results as numbers -/

/-- A difference of bytes is the difference modulo 256. -/
theorem toNat_sub_byte (a b : Byte) : ((a - b).toNat : Int) = (a.toNat - b.toNat : Int) % 256 := by
  have := a.isLt; have := b.isLt
  rw [BitVec.toNat_sub]; omega

theorem toNat_shiftRight_one (a : Byte) : (a >>> 1).toNat = a.toNat / 2 := by
  rw [BitVec.toNat_ushiftRight, Nat.shiftRight_eq_div_pow, pow_one]

theorem toNat_shiftLeft_one (a : Byte) : (a <<< 1).toNat = 2 * a.toNat % 256 := by
  rw [BitVec.toNat_shiftLeft, Nat.shiftLeft_eq]; omega

/-! ### The statements -/

/-- Settles O32: the flag is the carry of the old values, and VF is written after the sum. -/
theorem addSetsCarry : Obligations.AddSetsCarry := by
  unfold Obligations.AddSetsCarry
  intro x y s
  refine ⟨(decode_aluGroup (fn := 4) (by decide) x y).trans (decodeAlu_addVxVy x y), ?_⟩
  exact exists_next_of_writeFlagged_advance (exec_addVxVy x y s)
    (F := (· = if (s.reg x).toNat + (s.reg y).toNat > 255 then 0x01 else 0x00))
    (R := (·.toNat = ((s.reg x).toNat + (s.reg y).toNat) % 256)) (flagByte_carry _ _) (BitVec.toNat_add _ _)

/-- Settles O33: both differences are taken modulo 256 and set the flag when the minuend is not the smaller. -/
theorem subtractSetsNotBorrow : Obligations.SubtractSetsNotBorrow := by
  unfold Obligations.SubtractSetsNotBorrow
  intro x y s
  refine ⟨⟨?_, ?_⟩, ⟨?_, ?_⟩⟩
  · exact (decode_aluGroup (fn := 5) (by decide) x y).trans (decodeAlu_subVxVy x y)
  · exact exists_next_of_writeFlagged_advance (exec_subVxVy x y s)
      (F := (· = if (s.reg x).toNat ≥ (s.reg y).toNat then 0x01 else 0x00))
      (R := fun b => (b.toNat : Int) = ((s.reg x).toNat - (s.reg y).toNat : Int) % 256)
      (flagByte_notBorrow _ _) (toNat_sub_byte _ _)
  · exact (decode_aluGroup (fn := 7) (by decide) x y).trans (decodeAlu_subnVxVy x y)
  · exact exists_next_of_writeFlagged_advance (exec_subnVxVy x y s)
      (F := (· = if (s.reg y).toNat ≥ (s.reg x).toNat then 0x01 else 0x00))
      (R := fun b => (b.toNat : Int) = ((s.reg y).toNat - (s.reg x).toNat : Int) % 256)
      (flagByte_notBorrow _ _) (toNat_sub_byte _ _)

/-- Settles O34: a shift by one is a halving or a doubling of the byte, and the flag is the bit that falls out. -/
theorem shiftsSaveTheLostBit : Obligations.ShiftsSaveTheLostBit := by
  unfold Obligations.ShiftsSaveTheLostBit
  intro x y s
  refine ⟨⟨?_, ?_⟩, ⟨?_, ?_⟩⟩
  · exact (decode_aluGroup (fn := 6) (by decide) x y).trans (decodeAlu_shrVx x y)
  · exact exists_next_of_writeFlagged_advance (exec_shrVx x y s) (F := (·.toNat = (s.reg x).toNat % 2))
      (R := (·.toNat = (s.reg x).toNat / 2)) (lowBitFlag_toNat _) (toNat_shiftRight_one _)
  · exact (decode_aluGroup (fn := 14) (by decide) x y).trans (decodeAlu_shlVx x y)
  · exact exists_next_of_writeFlagged_advance (exec_shlVx x y s) (F := (·.toNat = (s.reg x).toNat / 128))
      (R := (·.toNat = 2 * (s.reg x).toNat % 256)) (highBitFlag_toNat _) (toNat_shiftLeft_one _)

end Sys2Proof.Machine
end

section
/-! SUPPORT. The indexed jump and the glyph address (spec/40_flow.md R90, spec/42_index_memory.md R122): two addresses computed
from a register. -/

namespace Sys2Proof.Machine

/-- Writing `PC`, the count of entries and the stack leaves every part alone but those of them that change, so the one frame serves
jumps, skips, calls and returns. -/
theorem State.sameBut_setFlow (s : State) {a : Word} {n : Fin 17} {stk : Vector Word 16} {ps : List Part}
    (hpc : .pc ∈ ps) (hsp : .sp ∉ ps → n = s.sp) (hstack : .stack ∉ ps → stk = s.stack) :
    s.SameBut { s with pc := a, sp := n, stack := stk } ps := by
  intro p hp
  cases p with
  | pc => exact absurd hpc hp
  | sp => exact hsp hp
  | stack => exact hstack hp
  | regs | mem => exact fun _ => rfl
  | _ => rfl

theorem State.sameBut_setPc (s : State) (a : Word) : s.SameBut { s with pc := a } [.pc] :=
  s.sameBut_setFlow (List.mem_singleton_self _) (fun _ => rfl) fun _ => rfl

theorem exec_jpV0Addr (nnn : BitVec 12) (s : State) :
    exec (.jpV0Addr nnn) s = .next { s with pc := indexedTarget (s.reg 0) nnn } := rfl

theorem exec_ldFVx (x : Reg) (s : State) :
    exec (.ldFVx x) s = .next (State.advance { s with i := glyphAddr (s.reg x) }) := rfl

/-- Settles O25: the sum of a byte and a 12-bit address fits 16 bits, so `PC` holds it unreduced. -/
theorem indexedJumpAddsV0 : Obligations.IndexedJumpAddsV0 := by
  unfold Obligations.IndexedJumpAddsV0
  intro nnn s
  exact ⟨decode_jpV0Addr nnn, _, exec_jpV0Addr nnn s, indexedTarget_toNat _ _, s.sameBut_setPc _⟩

/-- Settles O37: five times a byte fits 16 bits, so `I` holds the product. -/
theorem glyphAddressIsFiveTimesVx : Obligations.GlyphAddressIsFiveTimesVx := by
  unfold Obligations.GlyphAddressIsFiveTimesVx
  intro x s
  exact ⟨(decode_miscGroup (fn := 0x29) (by decide) x).trans (decodeMisc_ldFVx x),
    exists_next_of_setIndex_advance (exec_ldFVx x s) (glyphAddr_toNat _)⟩

end Sys2Proof.Machine
end

section
/-! SUPPORT. Call and return (spec/40_flow.md R82, R84): what each answers with room or an entry, and without, as a record. -/

namespace Sys2Proof.Machine

/-- The newest held entry; with none held, entry 0. -/
def State.newestEntry (s : State) : Word := s.stack[s.sp.val - 1]'(by omega)

theorem exec_ret_of_pos {s : State} (h : 0 < s.sp.val) :
    exec .ret s = .next { s with pc := s.newestEntry, sp := ⟨s.sp.val - 1, by omega⟩ } := by
  have hpop : s.pop = some (s.newestEntry, { s with sp := ⟨s.sp.val - 1, by omega⟩ }) := if_pos h
  simp only [exec, execRet, hpop, State.jump]

theorem exec_ret_of_empty {s : State} (h : s.sp.val = 0) : exec .ret s = .next (s.takeFault .stackUnderflow) := by
  simp only [exec, execRet, pop_eq_none.2 h, raise]

theorem exec_callAddr_of_lt {s : State} (h : s.sp.val < 16) (nnn : BitVec 12) :
    exec (.callAddr nnn) s = .next { s with
      pc := addrOperand nnn
      sp := ⟨s.sp.val + 1, Nat.succ_lt_succ h⟩
      stack := s.stack.set s.sp.val (s.pc + 2) } := by
  have hpush : s.push (s.pc + 2) = some { s with
      stack := s.stack.set s.sp.val (s.pc + 2), sp := ⟨s.sp.val + 1, Nat.succ_lt_succ h⟩ } := dif_pos h
  simp only [exec, execCallAddr, hpush, State.jump]

theorem exec_callAddr_of_full {s : State} (h : s.sp.val = 16) (nnn : BitVec 12) :
    exec (.callAddr nnn) s = .next (s.takeFault .stackOverflow) := by
  simp only [exec, execCallAddr, push_eq_none.2 h, raise]

/-! ### The statements -/

/-- Settles O27: the two cases of the pop. -/
theorem returnPopsTheStack : Obligations.ReturnPopsTheStack := by
  unfold Obligations.ReturnPopsTheStack
  intro s
  refine ⟨fun h => ⟨_, exec_ret_of_pos h, rfl, rfl, ?_⟩, fun h => exec_ret_of_empty h⟩
  exact s.sameBut_setFlow (stk := s.stack) (by simp) (by simp) fun _ => rfl

/-- Settles O28: the two cases of the push. -/
theorem callPushesTheReturnAddress : Obligations.CallPushesTheReturnAddress := by
  unfold Obligations.CallPushesTheReturnAddress
  intro nnn s
  refine ⟨fun h => ⟨_, exec_callAddr_of_lt h nnn, addrOperand_eq nnn, rfl, ?_, fun j hj => ?_, ?_⟩,
    fun h => exec_callAddr_of_full h nnn⟩
  · exact Vector.getElem_set_self h
  · exact Vector.getElem_set_ne h j.isLt (Ne.symm hj)
  · exact s.sameBut_setFlow (by simp) (by simp) (by simp)

/-- Settles O29: the entry that the call pushed is the newest one, and the return pops it. -/
theorem returnUndoesCall : Obligations.ReturnUndoesCall := by
  unfold Obligations.ReturnUndoesCall
  intro nnn s h
  refine ⟨_, _, exec_callAddr_of_lt h nnn, exec_ret_of_pos (Nat.succ_pos _), ?_, rfl, fun j hj => ?_, ?_⟩
  · exact Vector.getElem_set_self h
  · exact Vector.getElem_set_ne h j.isLt (Nat.ne_of_gt hj)
  · exact s.sameBut_setFlow (by simp) (fun _ => rfl) (by simp)

end Sys2Proof.Machine
end

section
/-! SUPPORT. The stores and loads through the address register (spec/42_index_memory.md R123 to R126): one rule for the two stores,
one for the load, and the fault of each out of range. -/

namespace Sys2Proof.Machine

/-! ### Stores -/

theorem State.sameBut_setMem_advance (s : State) (m : Memory) : s.SameBut (State.advance { s with mem := m }) [.mem, .pc] := by
  intro p hp
  cases p with
  | mem | pc => simp at hp
  | regs => exact fun _ => rfl
  | _ => rfl

theorem storeAtI_in_range {s : State} {bs : List Byte} (h : s.i.toNat + bs.length ≤ 4096) :
    storeAtI bs s = .next (State.advance { s with mem := s.mem.writeBytes s.i.toNat bs }) := by
  rw [storeAtI_eq, if_pos (inRange_iff.2 (.inr h))]

/-- An instruction that stores `bs` from `I` on, all of it inside the address space: every byte lands, no other byte changes. -/
theorem exists_next_of_storeAtI {i : Instr} {s : State} {bs : List Byte} (h : exec i s = storeAtI bs s)
    (hm : s.mem.wf = true) (hr : s.i.toNat + bs.length ≤ 4096) :
    ∃ t, exec i s = .next t ∧ (∀ k, ∀ hk : k < bs.length, t.mem.read (s.i.toNat + k) = bs[k]) ∧
      (∀ a, (a < s.i.toNat ∨ s.i.toNat + bs.length ≤ a) → t.mem.read a = s.mem.read a) ∧
      t.pc = s.pc + 2 ∧ s.SameBut t [.mem, .pc] := by
  have hread := Memory.read_writeBytes (bs := bs) hm fun _ => hr
  refine ⟨_, h.trans (storeAtI_in_range hr), fun k hk => ?_, fun a ha => ?_, rfl, s.sameBut_setMem_advance _⟩
  · rw [State.advance_mem, hread, dif_pos (by omega)]
    congr 1
    omega
  · rw [State.advance_mem, hread, dif_neg (by omega)]

theorem storeAtI_out_of_range {s : State} {bs : List Byte} (h0 : 0 < bs.length) (h : 4096 < s.i.toNat + bs.length) :
    storeAtI bs s = .next (s.takeFault .outOfBounds) := by
  rw [storeAtI_eq, inRange_eq_false_iff.2 ⟨h0, h⟩]
  rfl

theorem exec_ldBVx (x : Reg) (s : State) : exec (.ldBVx x) s = storeAtI (decimalDigits (s.reg x)) s := rfl

theorem exec_ldMemVx (x : Reg) (s : State) : exec (.ldMemVx x) s = storeAtI (s.regBytes (x.val + 1)) s := rfl

theorem regBytes_succ_length (s : State) (x : Reg) : (s.regBytes (x.val + 1)).length = x.val + 1 :=
  regBytes_length s _ (by omega)

/-! ### Loads -/

theorem exec_ldVxMem_in_range {x : Reg} {s : State} (h : s.i.toNat + x.val < 4096) :
    exec (.ldVxMem x) s = .next (s.setRegs 0 (s.mem.readBytes s.i.toNat (x.val + 1))).advance :=
  (execLdVxMem_eq x s).trans (if_pos (inRange_iff.2 (.inr h)))

theorem exec_ldVxMem_out_of_range {x : Reg} {s : State} (h : s.i.toNat + x.val ≥ 4096) :
    exec (.ldVxMem x) s = .next (s.takeFault .outOfBounds) := by
  have hr : inRange s.i.toNat (x.val + 1) = false := inRange_eq_false_iff.2 ⟨by omega, Nat.lt_succ_of_le h⟩
  show execLdVxMem x s = _
  rw [execLdVxMem_eq, hr]
  rfl

theorem State.sameBut_setRegs_advance (s : State) (bs : List Byte) (k : Nat) :
    s.SameBut (s.setRegs k bs).advance [.regs, .pc] := by
  rw [setRegs_eq]
  intro p hp
  cases p with
  | regs | pc => simp at hp
  | mem => exact fun _ => rfl
  | _ => rfl

/-- A register after the loads of `Fx65`: up to `x` its byte of memory, above `x` what it was. -/
theorem setRegs_readBytes_reg (s : State) (m : Memory) (a : Nat) (x r : Reg) :
    (s.setRegs 0 (m.readBytes a (x.val + 1))).reg r = if r ≤ x then m.read (a + r.val) else s.reg r := by
  have hloaded : 0 ≤ r.val ∧ r.val < 0 + (m.readBytes a (x.val + 1)).length ↔ r ≤ x := by
    rw [Memory.readBytes_length, Fin.le_def]; omega
  rw [setRegs_reg]
  by_cases h : r ≤ x
  · rw [if_pos h, dif_pos (hloaded.2 h), Memory.readBytes_getElem, Nat.sub_zero]
  · rw [if_neg h, dif_neg (mt hloaded.1 h)]

/-! ### The statements -/

/-- Settles O38: the three digits are stored in the order of the list. -/
theorem decimalDigitsAreStored : Obligations.DecimalDigitsAreStored := by
  unfold Obligations.DecimalDigitsAreStored
  intro x s
  refine ⟨(decode_miscGroup (fn := 0x33) (by decide) x).trans (decodeMisc_ldBVx x), fun hm hr => ?_, fun hr => ?_⟩
  · obtain ⟨t, hexec, hread, hother, hpc, hframe⟩ :=
      exists_next_of_storeAtI (exec_ldBVx x s) hm (by rw [decimalDigits_length]; omega)
    rw [decimalDigits_length] at hother
    refine ⟨t, hexec, ?_, ?_, ?_, fun a ha => hother a (by omega), hpc, hframe⟩
    · exact (congrArg _ (hread 0 (by simp))).trans (hundreds_toNat _)
    · exact (congrArg _ (hread 1 (by simp))).trans (tens_toNat _)
    · exact (congrArg _ (hread 2 (by simp))).trans (units_toNat _)
  · exact (exec_ldBVx x s).trans (storeAtI_out_of_range (by simp) (by rw [decimalDigits_length]; omega))

/-- Settles O39: the stored bytes are the registers in order. -/
theorem registersAreStoredInclusive : Obligations.RegistersAreStoredInclusive := by
  unfold Obligations.RegistersAreStoredInclusive
  intro x s
  have hlen := regBytes_succ_length s x
  refine ⟨(decode_miscGroup (fn := 0x55) (by decide) x).trans (decodeMisc_ldMemVx x), fun hm hr => ?_, fun hr => ?_⟩
  · obtain ⟨t, hexec, hread, hother, hpc, hframe⟩ := exists_next_of_storeAtI (exec_ldMemVx x s) hm (by omega)
    refine ⟨t, hexec, fun r hrx => ?_, fun a ha => hother a (by omega), hpc, hframe⟩
    have hr' : r.val ≤ x.val := hrx
    rw [hread r.val (by omega), regBytes_getElem]
  · exact (exec_ldMemVx x s).trans (storeAtI_out_of_range (by omega) (by omega))

/-- Settles O40: the loaded registers are the bytes in order. -/
theorem registersAreLoadedInclusive : Obligations.RegistersAreLoadedInclusive := by
  unfold Obligations.RegistersAreLoadedInclusive
  intro x s
  refine ⟨(decode_miscGroup (fn := 0x65) (by decide) x).trans (decodeMisc_ldVxMem x), fun hr => ?_,
    fun hr => exec_ldVxMem_out_of_range hr⟩
  refine ⟨_, exec_ldVxMem_in_range hr, fun r hrx => ?_, fun r hxr => ?_, ?_, s.sameBut_setRegs_advance _ _⟩
  · rw [State.advance_reg, setRegs_readBytes_reg, if_pos hrx]
  · rw [State.advance_reg, setRegs_readBytes_reg, if_neg (not_le_of_gt hxr)]
  · rw [State.advance_pc, setRegs_eq]

/-- Settles O41: the load reads the addresses that the store wrote, because neither moves `I`. -/
theorem loadAfterStoreRestoresRegisters : Obligations.LoadAfterStoreRestoresRegisters := by
  unfold Obligations.LoadAfterStoreRestoresRegisters
  intro x s hm hr
  obtain ⟨t, hexec, hstored, -, -, hframe⟩ := (registersAreStoredInclusive x s).2.1 hm hr
  have hti : t.i = s.i := hframe .index (by decide)
  refine ⟨t, hexec, fun u hui hum => ?_⟩
  rw [hti] at hui
  obtain ⟨w, hw, hloaded, -⟩ := (registersAreLoadedInclusive x u).2.1 (hui ▸ hr)
  refine ⟨w, hw, fun r hrx => ?_⟩
  rw [hloaded r hrx, hui, hum, hstored r hrx]

end Sys2Proof.Machine
end

section
/-! SUPPORT. The key skips (spec/44_keypad_timers.md R140 to R142) and the events `set_key` and `present`
(spec/60_exceptions.md R163, R164), with the statements about them. -/

namespace Sys2Proof.Machine

theorem exec_skpVx_of_lt {x : Reg} {s : State} (h : (s.reg x).toNat < 16) :
    exec (.skpVx x) s = .next (s.skipIf s.key[(s.reg x).toNat]) := by
  simp only [exec, execSkpVx, keyAt_eq_some.2 ⟨h, rfl⟩]

theorem exec_skpVx_of_ge {x : Reg} {s : State} (h : 16 ≤ (s.reg x).toNat) :
    exec (.skpVx x) s = .next (s.takeFault .outOfBounds) := by
  simp only [exec, execSkpVx, keyAt_eq_none.2 h, raise]

theorem exec_sknpVx_of_lt {x : Reg} {s : State} (h : (s.reg x).toNat < 16) :
    exec (.sknpVx x) s = .next (s.skipIf !s.key[(s.reg x).toNat]) := by
  simp only [exec, execSknpVx, keyAt_eq_some.2 ⟨h, rfl⟩]

theorem exec_sknpVx_of_ge {x : Reg} {s : State} (h : 16 ≤ (s.reg x).toNat) :
    exec (.sknpVx x) s = .next (s.takeFault .outOfBounds) := by
  simp only [exec, execSknpVx, keyAt_eq_none.2 h, raise]

/-- Settles O46: the key that the index names decides the shared skip of R85; an index that names none faults. -/
theorem keySkipsTestTheLatch : Obligations.KeySkipsTestTheLatch := by
  unfold Obligations.KeySkipsTestTheLatch
  intro x s
  refine ⟨?_, ?_, fun h => ⟨?_, ?_⟩, fun h => ⟨exec_skpVx_of_ge h, exec_sknpVx_of_ge h⟩⟩
  · exact (decode_keyGroup (fn := 0x9E) (by decide) x).trans (decodeKey_skpVx x)
  · exact (decode_keyGroup (fn := 0xA1) (by decide) x).trans (decodeKey_sknpVx x)
  · exact (exec_skpVx_of_lt h).trans (congrArg _ (s.skipIf_eq Iff.rfl))
  · exact (exec_sknpVx_of_lt h).trans (congrArg _ (s.skipIf_eq (Bool.not_eq_true' _ ▸ Iff.rfl)))

/-! ### `set_key` and `present` -/

theorem State.setKey_of_lt {k : Nat} (h : k < 16) (p : Bool) (s : State) :
    s.setKey k p = { s with key := s.key.set k p } := dif_pos h

theorem State.setKey_of_ge {k : Nat} (h : 16 ≤ k) (p : Bool) (s : State) : s.setKey k p = s := dif_neg (Nat.not_lt.2 h)

theorem State.sameBut_setKey (s : State) (k : Nat) (p : Bool) : s.SameBut (s.setKey k p) [.key] := by
  rcases Nat.lt_or_ge k 16 with h | h
  · rw [State.setKey_of_lt h]
    intro q hq
    cases q with
    | key => simp at hq
    | regs | mem => exact fun _ => rfl
    | _ => rfl
  · rw [State.setKey_of_ge h]
    exact fun q _ => q.same_refl s

theorem State.sameBut_present (s : State) : s.SameBut s.present [.dirty] := by
  intro p hp
  cases p with
  | dirty => simp at hp
  | regs | mem => exact fun _ => rfl
  | _ => rfl

/-- Settles O50: one entry of the key vector is written when the index names one. -/
theorem setKeySetsOneKey : Obligations.SetKeySetsOneKey := by
  unfold Obligations.SetKeySetsOneKey
  intro s k p
  refine ⟨fun h => ⟨?_, fun j hj => ?_, s.sameBut_setKey k p⟩, fun h => State.setKey_of_ge h p s⟩
  · simp only [State.setKey_of_lt h, Vector.getElem_set_self]
  · simp only [State.setKey_of_lt h, Vector.getElem_set_ne h j.isLt (Ne.symm hj)]

/-- Settles O51: `dirty` is the one field that the event writes. -/
theorem presentClearsDirtyAlone : Obligations.PresentClearsDirtyAlone := by
  unfold Obligations.PresentClearsDirtyAlone
  exact fun s => ⟨rfl, s.sameBut_present⟩

end Sys2Proof.Machine
end

section
/-! SUPPORT. The draw (spec/43_display.md R131 to R133): what a whole sprite does to the pixels, to `collision` and to `changed`, in
the terms of the statements, and what drawing it again and counting the lit pixels give. -/

namespace Sys2Proof.Machine

/-! ### One sprite on a pixel buffer -/

/-- Some 1 bit of a row makes the row nonzero, and a nonzero row has one among its eight columns. -/
theorem exists_spriteBit_iff {row : Byte} : (∃ j < 8, spriteBit row j = true) ↔ row ≠ 0 := by
  constructor
  · rintro ⟨j, -, hj⟩ rfl
    simp [spriteBit_eq] at hj
  · intro h
    by_contra hno
    push Not at hno
    refine h (BitVec.eq_of_getLsbD_eq fun b hb => ?_)
    have hbit := hno (7 - b) (by omega)
    rw [spriteBit_eq, show 7 - (7 - b) = b by omega] at hbit
    simpa using hbit

/-- Toggled where the sprite lands. -/
theorem drawSprite_pixel_of_hit {fb : Screen} {xo yo px py : Nat} {rows : List Byte} (hlen : rows.length ≤ 32)
    (h : RowsHit rows xo yo px py) : (drawSprite fb xo yo rows).fb.pixel px py = !fb.pixel px py :=
  (plotRows_spec xo rows ⟨fb, false, false⟩ yo hlen).1 px py h

/-- As it was everywhere else. -/
theorem drawSprite_pixel_of_not_hit {fb : Screen} {xo yo px py : Nat} {rows : List Byte} (hlen : rows.length ≤ 32)
    (h : ¬ RowsHit rows xo yo px py) : (drawSprite fb xo yo rows).fb.pixel px py = fb.pixel px py :=
  (plotRows_spec xo rows ⟨fb, false, false⟩ yo hlen).2.1 px py h

theorem drawSprite_collision_iff {fb : Screen} {xo yo : Nat} {rows : List Byte} (hlen : rows.length ≤ 32) :
    (drawSprite fb xo yo rows).collision = true ↔
      ∃ k, ∃ h : k < rows.length, ∃ j < 8, spriteBit (rows[k]'h) j = true ∧ fb.pixel (xo + j) (yo + k) = true := by
  obtain ⟨-, -, hcollision, -⟩ := plotRows_spec xo rows ⟨fb, false, false⟩ yo hlen
  simp only [Bool.false_eq_true, false_or] at hcollision
  exact hcollision

theorem drawSprite_changed_iff {fb : Screen} {xo yo : Nat} {rows : List Byte} (hlen : rows.length ≤ 32) :
    (drawSprite fb xo yo rows).changed = true ↔ ∃ k, ∃ h : k < rows.length, rows[k]'h ≠ 0 := by
  obtain ⟨-, -, -, hchanged⟩ := plotRows_spec xo rows ⟨fb, false, false⟩ yo hlen
  simp only [exists_spriteBit_iff, Bool.false_eq_true, false_or] at hchanged
  exact hchanged

/-- A 1 bit of the sprite hits the pixel it is drawn at. -/
theorem rowsHit_of_bit {rows : List Byte} {k j : Nat} (hk : k < rows.length) (hj : j < 8)
    (hbit : spriteBit (rows[k]'hk) j = true) (xo yo : Nat) : RowsHit rows xo yo (xo + j) (yo + k) :=
  ⟨k, hk, j, hj, hbit, rfl, rfl⟩

/-- A collision is a covered pixel that was on. -/
theorem drawSprite_collision_iff_covered {fb : Screen} {xo yo : Nat} {rows : List Byte} (hlen : rows.length ≤ 32) :
    (drawSprite fb xo yo rows).collision = true ↔
      ∃ px < 64, ∃ py < 32, SpriteCovers rows xo yo px py ∧ fb.pixel px py = true := by
  rw [drawSprite_collision_iff hlen]
  constructor
  · rintro ⟨k, hk, j, hj, hbit, hon⟩
    refine ⟨(xo + j) % 64, by omega, (yo + k) % 32, by omega, ⟨k, j, hk, hj, hbit, rfl, rfl⟩, ?_⟩
    rwa [Screen.pixel_mod]
  · rintro ⟨_, -, _, -, ⟨k, j, hk, hj, hbit, rfl, rfl⟩, hon⟩
    rw [Screen.pixel_mod] at hon
    exact ⟨k, hk, j, hj, hbit, hon⟩

/-- The same sprite at the same place undoes itself. -/
theorem drawSprite_drawSprite_fb (fb : Screen) (xo yo : Nat) {rows : List Byte} (hlen : rows.length ≤ 32) :
    (drawSprite (drawSprite fb xo yo rows).fb xo yo rows).fb = fb := by
  refine Screen.ext_pixel fun px _ py _ => ?_
  by_cases h : RowsHit rows xo yo px py
  · rw [drawSprite_pixel_of_hit hlen h, drawSprite_pixel_of_hit hlen h, Bool.not_not]
  · rw [drawSprite_pixel_of_not_hit hlen h, drawSprite_pixel_of_not_hit hlen h]

/-- The second of two equal draws collides where the first lit a pixel. -/
theorem drawSprite_drawSprite_collision_iff {fb : Screen} {xo yo : Nat} {rows : List Byte} (hlen : rows.length ≤ 32) :
    (drawSprite (drawSprite fb xo yo rows).fb xo yo rows).collision = true ↔
      ∃ k, ∃ h : k < rows.length, ∃ j < 8, spriteBit (rows[k]'h) j = true ∧ fb.pixel (xo + j) (yo + k) = false := by
  rw [drawSprite_collision_iff hlen]
  refine exists_congr fun k => exists_congr fun hk => exists_congr fun j => and_congr_right fun hj =>
    and_congr_right fun hbit => ?_
  rw [drawSprite_pixel_of_hit hlen (rowsHit_of_bit hk hj hbit xo yo), Bool.not_eq_true']

/-! ### Counting lit pixels -/

theorem sum_set_add : ∀ (l : List Nat) {k : Nat} (h : k < l.length) (a : Nat), (l.set k a).sum + l[k] = l.sum + a
  | b :: l, 0, _, a => by simp; omega
  | b :: l, k + 1, h, a => by
    have := sum_set_add l (Nat.lt_of_succ_lt_succ h) a
    simp; omega

theorem count_true_set : ∀ (l : List Bool) {k : Nat} (h : k < l.length) (b : Bool),
    (l.set k b).count true + l[k].toNat = l.count true + b.toNat
  | c :: l, 0, _, b => by cases b <;> cases c <;> simp
  | c :: l, k + 1, h, b => by
    have := count_true_set l (Nat.lt_of_succ_lt_succ h) b
    simp [List.count_cons]; omega

/-- A toggle lights one pixel more, or one less if it was on. -/
theorem Screen.lit_toggle (fb : Screen) (px py : Nat) :
    (fb.toggle px py).lit + 2 * (fb.pixel px py).toNat = fb.lit + 1 := by
  have hx : px % 64 < 64 := Nat.mod_lt _ (by decide)
  have hy : py % 32 < 32 := Nat.mod_lt _ (by decide)
  have hrow := count_true_set (fb[py % 32]).toList (k := px % 64) (by simpa using hx) (!fb.pixel px py)
  have hrows := sum_set_add (fb.toList.map fun row => row.toList.count true) (k := py % 32) (by simpa using hy)
    ((fb[py % 32].toList.set (px % 64) (!fb.pixel px py)).count true)
  have hlit : (fb.toggle px py).lit = ((fb.toList.map fun row => row.toList.count true).set (py % 32)
      ((fb[py % 32].toList.set (px % 64) (!fb.pixel px py)).count true)).sum := by
    simp only [Screen.lit, Screen.toggle, Vector.toList_set, List.map_set]
  have hpixel : (fb[py % 32]).toList[px % 64]'(by simpa using hx) = fb.pixel px py := by simp [Screen.pixel]
  rw [hpixel] at hrow
  simp only [List.getElem_map, Vector.getElem_toList] at hrows
  rw [hlit]
  unfold Screen.lit
  cases hp : fb.pixel px py <;> simp only [hp, Bool.not_true, Bool.not_false, Bool.toNat_true, Bool.toNat_false] at * <;> omega

/-- The first `k` bits of a row: one lit pixel more for each 1 bit, two less for each that hits a lit pixel. -/
theorem lit_plotBits (c : Canvas) (xo y : Nat) (row : Byte) : ∀ k ≤ 64,
    (c.plotBits xo y row k).fb.lit + 2 * (List.range k).countP (fun j => spriteBit row j && c.fb.pixel (xo + j) y) =
      c.fb.lit + (List.range k).countP (spriteBit row)
  | 0, _ => by simp [Canvas.plotBits]
  | k + 1, hk => by
    have ih := lit_plotBits c xo y row k (by omega)
    have hsame := (plotBits_spec c xo y row k (by omega)).2.1 _ _ (not_rowHits_self (by omega))
    have htoggle := (c.plotBits xo y row k).fb.lit_toggle (xo + k) y
    rw [hsame] at htoggle
    simp only [plotBits_succ, List.range_succ, List.countP_append, List.countP_singleton]
    cases hbit : spriteBit row k with
    | false => simpa [hbit] using ih
    | true =>
      simp only [plot_true, Bool.true_and, if_true]
      cases hon : c.fb.pixel (xo + k) y <;> simp only [hon, Bool.toNat_true, Bool.toNat_false] at htoggle <;>
        simp only [Bool.false_eq_true, if_true, if_false] <;> omega

/-- A row drawn at `y` leaves the rows below it alone. -/
theorem pixel_plotRow_of_ne {c : Canvas} {xo y px py : Nat} {row : Byte} (h : py % 32 ≠ y % 32) :
    (c.plotRow xo y row).fb.pixel px py = c.fb.pixel px py :=
  (plotBits_spec c xo y row 8 (by decide)).2.1 px py fun ⟨_, _, _, _, hy⟩ => h hy

/-- The whole sprite, its rows numbered from `yo`. -/
theorem lit_plotRows (xo : Nat) : ∀ (n : Nat) (row : Nat → Byte) (c : Canvas) (yo : Nat), n ≤ 32 →
    (c.plotRows xo yo ((List.range n).map row)).fb.lit + 2 * ((List.range n).map fun k =>
        (List.range 8).countP fun j => spriteBit (row k) j && c.fb.pixel (xo + j) (yo + k)).sum =
      c.fb.lit + ((List.range n).map fun k => (List.range 8).countP (spriteBit (row k))).sum
  | 0, _, _, _, _ => by simp [Canvas.plotRows]
  | n + 1, row, c, yo, hn => by
    have hfirst := lit_plotBits c xo yo (row 0) 8 (by decide)
    have hrest := lit_plotRows xo n (row ∘ Nat.succ) (c.plotRow xo yo (row 0)) (yo + 1) (by omega)
    have hhits : ((List.range n).map fun k => (List.range 8).countP fun j =>
          spriteBit ((row ∘ Nat.succ) k) j && (c.plotRow xo yo (row 0)).fb.pixel (xo + j) (yo + 1 + k)) =
        (List.range n).map fun k => (List.range 8).countP fun j =>
          spriteBit (row k.succ) j && c.fb.pixel (xo + j) (yo + k.succ) := by
      refine List.map_congr_left fun k hk => ?_
      rw [List.mem_range] at hk
      have hbelow (px : Nat) : (c.plotRow xo yo (row 0)).fb.pixel px (yo + 1 + k) = c.fb.pixel px (yo + k.succ) := by
        rw [pixel_plotRow_of_ne (by omega), show yo + 1 + k = yo + k.succ by omega]
      simp only [hbelow, Function.comp]
    rw [hhits] at hrest
    change (c.plotRow xo yo (row 0)).fb.lit + _ = _ at hfirst
    simp only [List.range_succ_eq_map, List.map_cons, List.map_map, Canvas.plotRows, List.sum_cons, Nat.add_zero] at *
    simp only [Function.comp_def] at *
    omega

/-- A count over the pairs of two ranges is the sum of the counts of the rows. -/
theorem countP_product (n m : Nat) (p : Nat → Nat → Bool) :
    (List.range n ×ˢ List.range m).countP (fun q => p q.1 q.2) =
      ((List.range n).map fun k => (List.range m).countP (p k)).sum := by
  show ((List.range n).flatMap fun a => (List.range m).map (Prod.mk a)).countP _ = _
  rw [List.countP_flatMap]
  simp only [Function.comp_def, List.countP_map]

/-! ### The meaning -/

/-- The state after a draw that left the canvas `c`: pixels, `dirty`, VF and the advance. -/
def State.withCanvas (s : State) (c : Canvas) : State :=
  (State.setFlag { s with fb := c.fb, dirty := s.dirty || c.changed } c.collision).advance

@[simp] theorem State.withCanvas_dirty (s : State) (c : Canvas) : (s.withCanvas c).dirty = (s.dirty || c.changed) := rfl

theorem State.withCanvas_reg_vf (s : State) (c : Canvas) : (s.withCanvas c).reg vf = flagByte c.collision := by
  rw [State.withCanvas, State.advance_reg, State.setFlag_reg, if_pos rfl]

theorem State.withCanvas_reg_vf_eq_one_iff (s : State) (c : Canvas) :
    (s.withCanvas c).reg vf = 0x01 ↔ c.collision = true := by
  rw [State.withCanvas_reg_vf]
  cases c.collision <;> decide

theorem State.regsBut_withCanvas (s : State) (c : Canvas) : s.RegsBut (s.withCanvas c) [vf] := by
  intro r hr
  rw [State.withCanvas, State.advance_reg, State.setFlag_reg, if_neg (List.ne_of_not_mem_cons hr)]
  rfl

theorem State.sameBut_withCanvas (s : State) (c : Canvas) : s.SameBut (s.withCanvas c) [.regs, .pc, .fb, .dirty] := by
  intro p hp
  cases p with
  | regs | pc | fb | dirty => simp at hp
  | mem => exact fun _ => rfl
  | _ => rfl

/-- The rows of a sprite that the statements call in range pass the range check of R126. -/
theorem inRange_of_sprite {a n : Nat} (h : n = 0 ∨ a + n - 1 < 4096) : inRange a n = true :=
  inRange_iff.2 (h.imp_right fun h => show a + n ≤ 4096 by omega)

theorem exec_drwVxVyNibble_in_range {n : Nat} {s : State} (h : n = 0 ∨ s.i.toNat + n - 1 < 4096) (x y : Reg) :
    exec (.drwVxVyNibble x y n) s =
      .next (s.withCanvas (drawSprite s.fb (s.reg x).toNat (s.reg y).toNat (s.mem.readBytes s.i.toNat n))) :=
  (execDrwVxVyNibble_eq x y n s).trans (if_pos (inRange_of_sprite h))

theorem exec_drwVxVyNibble_out_of_range {n : Nat} {s : State} (hn : n ≥ 1) (h : s.i.toNat + n - 1 ≥ 4096) (x y : Reg) :
    exec (.drwVxVyNibble x y n) s = .next (s.takeFault .outOfBounds) := by
  have hr : inRange s.i.toNat n = false := inRange_eq_false_iff.2 ⟨hn, show 4096 < s.i.toNat + n by omega⟩
  show execDrwVxVyNibble x y n s = _
  rw [execDrwVxVyNibble_eq, hr]
  rfl

/-! ### The statements -/

/-- Settles O43: the covered pixels are those the plotted rows hit. -/
theorem drawTogglesTheCoveredPixels : Obligations.DrawTogglesTheCoveredPixels := by
  unfold Obligations.DrawTogglesTheCoveredPixels
  intro x y n s hn
  refine ⟨?_, fun hr => ?_, fun h1 hr => exec_drwVxVyNibble_out_of_range h1 hr x y⟩
  · rw [← wordXYN_eq_ofNat hn]
    exact decode_drwVxVyNibble hn x y
  · have hlen : (s.mem.readBytes s.i.toNat n).length ≤ 32 := by rw [Memory.readBytes_length]; omega
    have hcollision := drawSprite_collision_iff_covered (fb := s.fb) (xo := (s.reg x).toNat) (yo := (s.reg y).toNat) hlen
    refine ⟨_, exec_drwVxVyNibble_in_range hr x y, fun px hx py hy => ⟨fun h => ?_, fun h => ?_⟩, fun h => ?_, fun h => ?_,
      ?_, s.regsBut_withCanvas _, rfl, s.sameBut_withCanvas _⟩
    · exact drawSprite_pixel_of_hit hlen ((rowsHit_iff_covers hx hy).2 h)
    · exact drawSprite_pixel_of_not_hit hlen (mt (rowsHit_iff_covers hx hy).1 h)
    · exact (s.withCanvas_reg_vf _).trans (congrArg flagByte (hcollision.2 h))
    · exact (s.withCanvas_reg_vf _).trans (congrArg flagByte (Bool.eq_false_iff.2 (mt hcollision.1 h)))
    · rw [State.withCanvas_dirty, Bool.or_eq_true, drawSprite_changed_iff hlen]
      simp

/-- Settles O44: the second draw reads the same rows at the same place, and the sprite undoes itself. -/
theorem drawingTwiceRestoresThePixels : Obligations.DrawingTwiceRestoresThePixels := by
  unfold Obligations.DrawingTwiceRestoresThePixels
  intro x y n s hn hr
  have hlen : (s.mem.readBytes s.i.toNat n).length ≤ 32 := by rw [Memory.readBytes_length]; omega
  refine ⟨_, exec_drwVxVyNibble_in_range hr x y, fun hx hy => 
    ⟨_, exec_drwVxVyNibble_in_range (s := s.withCanvas _) hr x y, ?_, ?_⟩⟩
  · rw [hx, hy]
    exact drawSprite_drawSprite_fb _ _ _ hlen
  · rw [hx, hy]
    exact (State.withCanvas_reg_vf_eq_one_iff _ _).trans
      ((drawSprite_drawSprite_collision_iff hlen).trans (by simp [spriteBit_eq]))

/-- Settles O45: the count of the drawn rows, as a count over the pairs of row and column. -/
theorem drawCountsLitPixels : Obligations.DrawCountsLitPixels := by
  unfold Obligations.DrawCountsLitPixels
  intro x y n s hn hr
  refine ⟨_, exec_drwVxVyNibble_in_range hr x y, ?_⟩
  rw [countP_product n 8 fun k j => (s.mem.read (s.i.toNat + k)).getLsbD (7 - j) &&
      s.fb.pixel ((s.reg x).toNat + j) ((s.reg y).toNat + k),
    countP_product n 8 fun k j => (s.mem.read (s.i.toNat + k)).getLsbD (7 - j)]
  exact lit_plotRows (s.reg x).toNat n (fun k => s.mem.read (s.i.toNat + k)) ⟨s.fb, false, false⟩ (s.reg y).toNat (by omega)

end Sys2Proof.Machine
end

section
/-! SUPPORT. Byte accesses and the stores of one instruction (spec/20_memory.md R41 to R44, R47), the pixel list, the memory of
`init` and the reset state (spec/60_exceptions.md R165, spec/70_reset_and_hazards.md R180, spec/10_state.md R30). -/

namespace Sys2Proof.Machine

/-! ### Byte accesses -/

theorem memReadByte_eq_none {s : State} {a : Nat} : memReadByte s a = none ↔ a ≥ 4096 := by
  unfold memReadByte Config.memSize
  split <;> simp <;> omega

theorem memWriteByte_eq_none {s : State} {a : Nat} {b : Byte} : memWriteByte s a b = none ↔ a ≥ 4096 := by
  unfold memWriteByte Config.memSize
  split <;> simp <;> omega

theorem memWriteByte_of_lt {a : Nat} (h : a < 4096) (s : State) (b : Byte) :
    memWriteByte s a b = some { s with mem := s.mem.write a b } := if_pos h

/-- A byte write that succeeds is inside the address space and changes memory alone. -/
theorem memWriteByte_eq_some {s t : State} {a : Nat} {b : Byte} :
    memWriteByte s a b = some t ↔ a < 4096 ∧ t = { s with mem := s.mem.write a b } := by
  unfold memWriteByte Config.memSize
  split <;> simp_all [eq_comm]

theorem State.sameBut_setMem (s : State) (m : Memory) : s.SameBut { s with mem := m } [.mem] := by
  intro p hp
  cases p with
  | mem => simp at hp
  | regs => exact fun _ => rfl
  | _ => rfl

/-- Settles O22: a read after a write, inside the address space and at its end. -/
theorem writtenBytesReadBack : Obligations.WrittenBytesReadBack := by
  unfold Obligations.WrittenBytesReadBack
  intro s a b hm
  refine ⟨memReadByte_eq_none, memWriteByte_eq_none, fun t ht => ⟨memWriteByte_wf hm ht, fun c => ?_, ?_⟩⟩
  · obtain ⟨ha, rfl⟩ := memWriteByte_eq_some.1 ht
    simp only [memReadByte, Memory.read_write hm]
    by_cases hc : c = a
    · simp only [hc, if_true]
      exact if_pos ha
    · simp only [if_neg hc]
  · obtain ⟨-, rfl⟩ := memWriteByte_eq_some.1 ht
    exact s.sameBut_setMem _

/-- Byte writes in sequence, the bytes numbered from `k`, are the write of the whole list. -/
theorem foldlM_memWriteByte (a : Nat) : ∀ (bs : List Byte) (s : State) (k : Nat), (bs ≠ [] → a + k + bs.length ≤ 4096) →
    (bs.zipIdx k).foldlM (fun t p => memWriteByte t (a + p.2) p.1) s = some { s with mem := s.mem.writeBytes (a + k) bs }
  | [], _, _, _ => rfl
  | b :: bs, s, k, h => by
    have hlen := h (List.cons_ne_nil b bs)
    rw [List.length_cons] at hlen
    rw [List.zipIdx_cons, List.foldlM_cons, memWriteByte_of_lt (by omega)]
    exact foldlM_memWriteByte a bs _ (k + 1) fun _ => by omega

/-- Settles O23: inside the address space no byte write of the sequence fails; past its end the whole check fails. -/
theorem storesAreByteWritesInSequence : Obligations.StoresAreByteWritesInSequence := by
  unfold Obligations.StoresAreByteWritesInSequence
  refine fun s a bs => ⟨fun h => ?_, fun h1 h => memWriteBytes_eq_none.2 (inRange_eq_false_iff.2 ⟨h1, h⟩)⟩
  rw [foldlM_memWriteByte a bs s 0 fun hne => h.resolve_left (mt List.length_eq_zero_iff.1 hne)]
  exact memWriteBytes_eq_some.2 ⟨inRange_iff.2 h, rfl⟩

/-! ### The pixel list -/

/-- Element `k * n + j` of rows of length `n` in sequence is element `j` of row `k`. -/
theorem getElem?_flatMap_toList {α : Type} {n : Nat} : ∀ (rows : List (Vector α n)) {k j : Nat} (hk : k < rows.length)
    (hj : j < n), (rows.flatMap Vector.toList)[k * n + j]? = some (rows[k][j])
  | row :: rows, 0, j, _, hj => by
    rw [List.flatMap_cons, List.getElem?_append_left (by simpa using hj)]
    simp [hj]
  | row :: rows, k + 1, j, hk, hj => by
    rw [List.flatMap_cons, List.getElem?_append_right (by rw [Vector.length_toList, Nat.succ_mul]; omega), Vector.length_toList,
      show (k + 1) * n + j - n = k * n + j by rw [Nat.succ_mul]; omega]
    exact getElem?_flatMap_toList rows (Nat.lt_of_succ_lt_succ hk) hj

theorem length_flatMap_toList {α : Type} {n : Nat} (rows : List (Vector α n)) :
    (rows.flatMap Vector.toList).length = rows.length * n := by
  simp [List.length_flatMap]

/-- Settles O53: 32 rows of 64 pixels in sequence. -/
theorem displayPixelsAreRowMajor : Obligations.DisplayPixelsAreRowMajor := by
  unfold Obligations.DisplayPixelsAreRowMajor
  refine fun s => ⟨?_, fun px hx py hy => ?_⟩
  · rw [State.displayPixels, length_flatMap_toList, Vector.length_toList]
  · rw [State.displayPixels, getElem?_flatMap_toList s.fb.toList (by rwa [Vector.length_toList]) hx]
    simp only [Vector.getElem_toList, Screen.pixel, Nat.mod_eq_of_lt hx, Nat.mod_eq_of_lt hy]

/-! ### `init` and the reset state -/

/-- Settles O54: the three ranges of the memory that `init` makes, and its one error. -/
theorem initLoadsTheRom : Obligations.InitLoadsTheRom := by
  unfold Obligations.InitLoadsTheRom
  refine fun font rom => ⟨fun h => ?_, fun h => (init_eq_error font).2 ⟨h, rfl⟩⟩
  refine ⟨_, (init_eq_ok font).2 ⟨h, rfl⟩, fun k hk => ?_, fun a h80 ha => ?_, fun a => ?_, State.reset.sameBut_setMem _⟩
  · rw [initMemory_read font h, dif_pos (by omega)]
    simp only [Nat.add_sub_cancel_left]
  · rw [initMemory_read font h, dif_neg (by omega), dif_neg (by omega)]
  · rw [initMemory_read font h, dif_neg (by omega), dif_pos a.isLt]

/-- Above the font, memory reads as 0 after reset. -/
theorem reset_mem_read {a : Nat} (h : 0x50 ≤ a) : State.reset.mem.read a = 0x00 := by
  rw [show State.reset.mem = initMemory defaultFont [] from initMemory_default.symm, initMemory_read defaultFont (by simp),
    dif_neg (by simp only [List.length_nil]; omega), dif_neg (by omega)]

/-- Settles O55: the fields of the reset state one by one. -/
theorem resetStateIsAsTabled : Obligations.ResetStateIsAsTabled := by
  unfold Obligations.ResetStateIsAsTabled
  exact ⟨rfl, by decide, rfl, rfl, rfl, rfl, Screen.pixel_blank, rfl, by decide, rfl, rfl, fun _ => reset_mem_read⟩

/-- Settles O18: no entry is held and no record is latched, so the last two clauses say nothing of the reset state. -/
theorem resetMeetsTheInvariant : Obligations.ResetMeetsTheInvariant := by
  unfold Obligations.ResetMeetsTheInvariant
  exact ⟨reset_mem_wf, by decide, by decide, fun _ hj => absurd hj (Nat.not_lt_zero _), fun _ hr => nomatch hr⟩

/-- Settles O6: the decoder evaluates on each word. -/
theorem exampleWordsDecode : Obligations.ExampleWordsDecode := by
  unfold Obligations.ExampleWordsDecode
  exact ⟨decode_cls, decode_ret, rfl, rfl, rfl, rfl, rfl, rfl, rfl, rfl, rfl, rfl, rfl, rfl⟩

end Sys2Proof.Machine
end

section
/-! SUPPORT. What an instruction does, said once for all 34: which fault it raises in which states, and if it raises none, which parts
of the state it writes, where `PC` goes, which registers change, what becomes of `dirty` and that memory stays canonical. -/

namespace Sys2Proof.Machine

/-! ### The random byte -/

theorem exec_rndVxByte (x : Reg) (kk : Byte) (s : State) : exec (.rndVxByte x kk) s =
    .next (State.setReg { s with draws := s.draws + 1 } x (Config.randomByte s.draws &&& kk)).advance := rfl

theorem State.sameBut_drawByte_setReg_advance (s : State) (d : Nat) (x : Reg) (b : Byte) :
    s.SameBut (State.setReg { s with draws := d } x b).advance [.regs, .pc, .draws] := by
  intro p hp
  cases p with
  | regs | pc | draws => simp at hp
  | mem => exact fun _ => rfl
  | _ => rfl

/-! ### Faults and frames, instruction by instruction -/

/-- The fault that an instruction raises in a state (spec/60_exceptions.md R151 to R153). -/
def faultOf (i : Instr) (s : State) : Option Fault :=
  match i with
  | .ret => if s.sp.val = 0 then some .stackUnderflow else none
  | .callAddr _ => if s.sp.val = 16 then some .stackOverflow else none
  | .drwVxVyNibble _ _ n => if n ≥ 1 ∧ s.i.toNat + n - 1 ≥ 4096 then some .outOfBounds else none
  | .ldBVx _ => if s.i.toNat + 2 ≥ 4096 then some .outOfBounds else none
  | .ldMemVx x | .ldVxMem x => if s.i.toNat + x.val ≥ 4096 then some .outOfBounds else none
  | .skpVx x | .sknpVx x => if (s.reg x).toNat ≥ 16 then some .outOfBounds else none
  | .cls | .jpAddr _ | .jpV0Addr _ | .seVxByte _ _ | .sneVxByte _ _ | .seVxVy _ _ | .sneVxVy _ _ | .ldVxByte _ _ | .addVxByte _ _
  | .ldVxVy _ _ | .orVxVy _ _ | .andVxVy _ _ | .xorVxVy _ _ | .addVxVy _ _ | .subVxVy _ _ | .shrVx _ _ | .subnVxVy _ _ | .shlVx _ _
  | .rndVxByte _ _ | .ldIAddr _ | .addIVx _ | .ldFVx _ | .ldVxDt _ | .ldVxK _ | .ldDtVx _ | .ldStVx _ => none

theorem sp_pos_of_noFault {s : State} (h : faultOf .ret s = none) : 0 < s.sp.val := by
  have : s.sp.val ≠ 0 := by simpa [faultOf] using h
  omega

theorem sp_lt_of_noFault {s : State} {nnn : BitVec 12} (h : faultOf (.callAddr nnn) s = none) : s.sp.val < 16 := by
  have : s.sp.val ≠ 16 := by simpa [faultOf] using h
  omega

theorem sprite_of_noFault {s : State} {x y : Reg} {n : Nat} (h : faultOf (.drwVxVyNibble x y n) s = none) :
    n = 0 ∨ s.i.toNat + n - 1 < 4096 := by
  have : ¬ (n ≥ 1 ∧ s.i.toNat + n - 1 ≥ 4096) := by simpa [faultOf] using h
  omega

/-- The parts of the state that an instruction writes when it raises no fault. -/
def written : Instr → List Part
  | .jpAddr _ | .jpV0Addr _ | .seVxByte _ _ | .sneVxByte _ _ | .seVxVy _ _ | .sneVxVy _ _ | .skpVx _ | .sknpVx _ => [.pc]
  | .ret => [.pc, .sp]
  | .callAddr _ => [.pc, .sp, .stack]
  | .cls => [.fb, .dirty, .pc]
  | .drwVxVyNibble _ _ _ => [.regs, .pc, .fb, .dirty]
  | .rndVxByte _ _ => [.regs, .pc, .draws]
  | .ldIAddr _ | .addIVx _ | .ldFVx _ => [.index, .pc]
  | .ldBVx _ | .ldMemVx _ => [.mem, .pc]
  | .ldDtVx _ => [.dt, .pc]
  | .ldStVx _ => [.st, .pc]
  | .ldVxByte _ _ | .addVxByte _ _ | .ldVxVy _ _ | .orVxVy _ _ | .andVxVy _ _ | .xorVxVy _ _ | .addVxVy _ _ | .subVxVy _ _
  | .shrVx _ _ | .subnVxVy _ _ | .shlVx _ _ | .ldVxDt _ | .ldVxK _ | .ldVxMem _ => [.regs, .pc]

/-- Where `PC` is after an instruction that raised no fault (spec/10_state.md R13). -/
def PcAfter (i : Instr) (s t : State) : Prop :=
  match i with
  | .jpAddr nnn | .callAddr nnn => t.pc.toNat = nnn.toNat
  | .jpV0Addr nnn => t.pc.toNat = (s.reg 0).toNat + nnn.toNat
  | .ret => 0 < s.sp.val ∧ t.pc = s.newestEntry
  | .seVxByte _ _ | .sneVxByte _ _ | .seVxVy _ _ | .sneVxVy _ _ | .skpVx _ | .sknpVx _ => t.pc = s.pc + 2 ∨ t.pc = s.pc + 4
  | .ldVxK _ => t.pc = s.pc + 2 ∨ t = s
  | .cls | .ldVxByte _ _ | .addVxByte _ _ | .ldVxVy _ _ | .orVxVy _ _ | .andVxVy _ _ | .xorVxVy _ _ | .addVxVy _ _
  | .subVxVy _ _ | .shrVx _ _ | .subnVxVy _ _ | .shlVx _ _ | .ldIAddr _ | .rndVxByte _ _ | .drwVxVyNibble _ _ _ | .ldVxDt _
  | .ldDtVx _ | .ldStVx _ | .addIVx _ | .ldFVx _ | .ldBVx _ | .ldMemVx _ | .ldVxMem _ => t.pc = s.pc + 2

/-- The instruction raises no fault and leaves the state `t`, of which the rest holds. -/
structure Executed (i : Instr) (s t : State) : Prop where
  noFault : faultOf i s = none
  exec_eq : exec i s = .next t
  frame : s.SameBut t (written i)
  pc : PcAfter i s t
  regs : ∀ r, ¬ WritesReg i r → t.reg r = s.reg r
  dirty : t.dirty = (s.dirty || writesDirty i s)
  mem_wf : s.mem.wf = true → t.mem.wf = true

/-! ### One rule per shape of instruction -/

theorem State.skipIf_pc_or (s : State) (c : Bool) : (s.skipIf c).pc = s.pc + 2 ∨ (s.skipIf c).pc = s.pc + 4 := by
  cases c
  · exact .inl rfl
  · exact .inr rfl

theorem executed_storeAtI {i : Instr} {s : State} {bs : List Byte} (hf : faultOf i s = none)
    (hexec : exec i s = storeAtI bs s) (hr : s.i.toNat + bs.length ≤ 4096) (hw : written i = [.mem, .pc])
    (hpc : ∀ t : State, t.pc = s.pc + 2 → PcAfter i s t) (hd : writesDirty i s = false) :
    Executed i s (State.advance { s with mem := s.mem.writeBytes s.i.toNat bs }) where
  noFault := hf
  exec_eq := hexec.trans (storeAtI_in_range hr)
  frame := hw ▸ s.sameBut_setMem_advance _
  pc := hpc _ rfl
  regs := fun _ _ => rfl
  dirty := by rw [hd, Bool.or_false]; rfl
  mem_wf := fun hm => Memory.wf_writeBytes hm fun _ => hr

theorem memReadBytes_of_sprite {s : State} {n : Nat} (h : n = 0 ∨ s.i.toNat + n - 1 < 4096) :
    memReadBytes s s.dataBase n = some (s.mem.readBytes s.i.toNat n) :=
  memReadBytes_eq_some.2 ⟨inRange_of_sprite h, rfl⟩

theorem executed_withCanvas {x y : Reg} {n : Nat} {s : State} (hr : n = 0 ∨ s.i.toNat + n - 1 < 4096) :
    Executed (.drwVxVyNibble x y n) s
      (s.withCanvas (drawSprite s.fb (s.reg x).toNat (s.reg y).toNat (s.mem.readBytes s.i.toNat n))) where
  noFault := if_neg (by omega)
  exec_eq := exec_drwVxVyNibble_in_range hr x y
  frame := s.sameBut_withCanvas _
  pc := rfl
  regs := fun _ hr => s.regsBut_withCanvas _ _ (by simpa [WritesReg] using hr)
  dirty := by
    simp only [State.withCanvas_dirty, writesDirty, memReadBytes_of_sprite hr]
  mem_wf := id

theorem executed_setRegs {x : Reg} {s : State} (h : s.i.toNat + x.val < 4096) : Executed (.ldVxMem x) s
    (s.setRegs 0 (s.mem.readBytes s.i.toNat (x.val + 1))).advance where
  noFault := if_neg (Nat.not_le_of_lt h)
  exec_eq := exec_ldVxMem_in_range h
  frame := s.sameBut_setRegs_advance _ _
  pc := by
    show _ = _
    rw [State.advance_pc, setRegs_eq]
  regs := fun r hr => (setRegs_readBytes_reg s s.mem s.i.toNat x r).trans (if_neg hr)
  dirty := by rw [State.advance_dirty, setRegs_eq]; exact (Bool.or_false _).symm
  mem_wf := by rw [State.advance_mem, setRegs_eq]; exact id

/-- An instruction raises the one fault of its conditions, which is taken, or executes. -/
theorem exec_cases (i : Instr) (s : State) :
    (∃ k, faultOf i s = some k ∧ exec i s = .next (s.takeFault k)) ∨
    (∃ t, Executed i s t) := by
  have hclean : s.dirty = (s.dirty || false) := (Bool.or_false _).symm
  cases i with
  | cls =>
    exact .inr ⟨_, rfl, exec_cls s, s.sameBut_setDisplay_advance _ _, rfl, fun _ _ => rfl, (Bool.or_true _).symm, id⟩
  | ret =>
    by_cases h : s.sp.val = 0
    · exact .inl ⟨_, if_pos h, exec_ret_of_empty h⟩
    · have h' : 0 < s.sp.val := Nat.pos_of_ne_zero h
      exact .inr ⟨_, if_neg h, exec_ret_of_pos h',
        s.sameBut_setFlow (stk := s.stack) (by simp [written]) (by simp [written]) fun _ => rfl, ⟨h', rfl⟩,
        fun _ _ => rfl, hclean, id⟩
  | callAddr nnn =>
    by_cases h : s.sp.val = 16
    · exact .inl ⟨_, if_pos h, exec_callAddr_of_full h nnn⟩
    · exact .inr ⟨_, if_neg h, exec_callAddr_of_lt (by omega) nnn,
        s.sameBut_setFlow (by simp [written]) (by simp [written]) (by simp [written]), addrOperand_toNat nnn, fun _ _ => rfl,
        hclean, id⟩
  | jpAddr nnn =>
    exact .inr ⟨_, rfl, exec_jpAddr nnn s, s.sameBut_setPc _, addrOperand_toNat nnn, fun _ _ => rfl, hclean, id⟩
  | jpV0Addr nnn =>
    exact .inr ⟨_, rfl, exec_jpV0Addr nnn s, s.sameBut_setPc _, indexedTarget_toNat _ nnn, fun _ _ => rfl, hclean, id⟩
  | seVxByte _ _ | sneVxByte _ _ | seVxVy _ _ | sneVxVy _ _ =>
    exact .inr ⟨_, rfl, rfl, s.sameBut_setPc _, s.skipIf_pc_or _, fun _ _ => rfl, hclean, id⟩
  | skpVx x =>
    by_cases h : (s.reg x).toNat ≥ 16
    · exact .inl ⟨_, if_pos h, exec_skpVx_of_ge h⟩
    · exact .inr ⟨_, if_neg h, exec_skpVx_of_lt (Nat.lt_of_not_le h), s.sameBut_setPc _, s.skipIf_pc_or _, fun _ _ => rfl,
        hclean, id⟩
  | sknpVx x =>
    by_cases h : (s.reg x).toNat ≥ 16
    · exact .inl ⟨_, if_pos h, exec_sknpVx_of_ge h⟩
    · exact .inr ⟨_, if_neg h, exec_sknpVx_of_lt (Nat.lt_of_not_le h), s.sameBut_setPc _, s.skipIf_pc_or _, fun _ _ => rfl,
        hclean, id⟩
  | ldVxByte x _ | addVxByte x _ | ldVxVy x _ | orVxVy x _ | andVxVy x _ | xorVxVy x _ | ldVxDt x =>
    exact .inr ⟨_, rfl, rfl, s.sameBut_setReg_advance x _, rfl, fun _ hr => s.setReg_reg_ne _ hr, hclean, id⟩
  | addVxVy x _ | subVxVy x _ | shrVx x _ | subnVxVy x _ | shlVx x _ =>
    exact .inr ⟨_, rfl, rfl, s.sameBut_writeFlagged_advance x _ _, rfl,
      fun _ hr => s.regsBut_writeFlagged_advance x _ _ _ (by simpa [WritesReg] using hr), hclean, id⟩
  | rndVxByte x kk =>
    exact .inr ⟨_, rfl, exec_rndVxByte x kk s, s.sameBut_drawByte_setReg_advance _ x _, rfl,
      fun _ hr => State.setReg_reg_ne _ _ hr, hclean, id⟩
  | ldIAddr _ | addIVx _ | ldFVx _ =>
    exact .inr ⟨_, rfl, rfl, s.sameBut_setIndex_advance _, rfl, fun _ _ => rfl, hclean, id⟩
  | drwVxVyNibble x y n =>
    by_cases h : n ≥ 1 ∧ s.i.toNat + n - 1 ≥ 4096
    · exact .inl ⟨_, if_pos h, exec_drwVxVyNibble_out_of_range h.1 h.2 x y⟩
    · have hr : n = 0 ∨ s.i.toNat + n - 1 < 4096 := by omega
      exact .inr ⟨_, executed_withCanvas hr⟩
  | ldVxK x =>
    cases hk : s.lowestKey with
    | none =>
      exact .inr ⟨_, rfl, exec_ldVxK_of_lowestKey_none hk x, fun p _ => p.same_refl s, .inr rfl, fun _ _ => rfl, hclean, id⟩
    | some k =>
      exact .inr ⟨_, rfl, exec_ldVxK_of_lowestKey_some hk x, s.sameBut_setReg_advance x _, .inl rfl,
        fun _ hr => s.setReg_reg_ne _ hr, hclean, id⟩
  | ldDtVx x =>
    exact .inr ⟨_, rfl, exec_ldDtVx x s,
      s.sameBut_setTimers_advance (b := s.st) (by simp [written]) (by simp [written]) fun _ => rfl, rfl,
      fun _ _ => rfl, hclean, id⟩
  | ldStVx x =>
    exact .inr ⟨_, rfl, exec_ldStVx x s,
      s.sameBut_setTimers_advance (a := s.dt) (by simp [written]) (fun _ => rfl) (by simp [written]), rfl,
      fun _ _ => rfl, hclean, id⟩
  | ldBVx x =>
    by_cases h : s.i.toNat + 2 ≥ 4096
    · exact .inl ⟨_, if_pos h, storeAtI_out_of_range (by simp) (by rw [decimalDigits_length]; omega)⟩
    · have hr : s.i.toNat + (decimalDigits (s.reg x)).length ≤ 4096 := by rw [decimalDigits_length]; omega
      exact .inr ⟨_, executed_storeAtI (if_neg h) rfl hr rfl (fun _ => id) rfl⟩
  | ldMemVx x =>
    have hlen := regBytes_succ_length s x
    by_cases h : s.i.toNat + x.val ≥ 4096
    · exact .inl ⟨_, if_pos h, storeAtI_out_of_range (by omega) (by omega)⟩
    · have hr : s.i.toNat + (s.regBytes (x.val + 1)).length ≤ 4096 := by omega
      exact .inr ⟨_, executed_storeAtI (if_neg h) rfl hr rfl (fun _ => id) rfl⟩
  | ldVxMem x =>
    by_cases h : s.i.toNat + x.val ≥ 4096
    · exact .inl ⟨_, if_pos h, exec_ldVxMem_out_of_range h⟩
    · exact .inr ⟨_, executed_setRegs (Nat.lt_of_not_le h)⟩

theorem exec_eq_takeFault {i : Instr} {s : State} {k : Fault} (h : faultOf i s = some k) :
    exec i s = .next (s.takeFault k) := by
  rcases exec_cases i s with ⟨k', hk', hexec⟩ | ⟨t, ht⟩
  · rwa [← Option.some.inj (h.symm.trans hk')] at hexec
  · cases h.symm.trans ht.noFault

theorem executed_of_noFault {i : Instr} {s : State} (h : faultOf i s = none) : ∃ t, Executed i s t :=
  (exec_cases i s).resolve_left fun ⟨_, hk, _⟩ => by cases h.symm.trans hk

/-- An instruction that raised no fault leaves the latch alone. -/
theorem Executed.latch_eq {i : Instr} {s t : State} (h : Executed i s t) : t.latch = s.latch :=
  h.frame .latch (by cases i <;> simp [written])

end Sys2Proof.Machine
end

section
/-! SUPPORT. What a step does (spec/40_flow.md R80, spec/60_exceptions.md R150 to R161): the fetch as numbers, which fault a running
machine raises, and the inversion of a step from which the statements about faults and about the whole machine follow. -/

namespace Sys2Proof.Machine

/-! ### The fetch -/

theorem fetchWord_eq_none {s : State} : s.fetchWord = none ↔ 4095 ≤ s.pc.toNat := by
  refine memReadWord_eq_none.trans ?_
  show 4096 ≤ s.pc.toNat + 1 ↔ _
  omega

theorem fetchWord_eq_some {s : State} {op : Word} : s.fetchWord = some op ↔
    s.pc.toNat < 4095 ∧ op = wordOfBytes (s.mem.read s.pc.toNat) (s.mem.read (s.pc.toNat + 1)) := by
  refine memReadWord_eq_some.trans (and_congr_left fun _ => ?_)
  show s.pc.toNat + 1 < 4096 ↔ _
  omega

theorem pc_lt_of_fetchInstr_ok {s : State} {i : Instr} (h : s.fetchInstr = .ok i) : s.pc.toNat < 4095 := by
  obtain ⟨op, hop, -⟩ := fetchInstr_eq_ok.1 h
  exact (fetchWord_eq_some.1 hop).1

/-- Only well-formed instructions are fetched. -/
theorem wellFormed_of_fetchInstr_ok {s : State} {i : Instr} (h : s.fetchInstr = .ok i) : i.wellFormed = true := by
  obtain ⟨op, -, hi⟩ := fetchInstr_eq_ok.1 h
  exact (encode_of_decode hi).1

theorem extractHigh_wordOfBytes (hi lo : Byte) : (wordOfBytes hi lo).extractLsb' 8 8 = hi := by
  have := hi.isLt; have := lo.isLt
  apply BitVec.eq_of_toNat_eq
  rw [BitVec.extractLsb'_toNat, wordOfBytes_toNat, Nat.shiftRight_eq_div_pow]; omega

theorem extractLow_wordOfBytes (hi lo : Byte) : (wordOfBytes hi lo).extractLsb' 0 8 = lo := by
  have := hi.isLt; have := lo.isLt
  apply BitVec.eq_of_toNat_eq
  rw [BitVec.extractLsb'_toNat, wordOfBytes_toNat, Nat.shiftRight_zero]; omega

/-- Settles O7: the word is put together from its two bytes and gives them back. -/
theorem instructionFetchIsBigEndian : Obligations.InstructionFetchIsBigEndian := by
  unfold Obligations.InstructionFetchIsBigEndian
  refine fun s => ⟨fun a => ?_, fun op hop => ?_⟩
  · split_ifs with h
    · exact memReadWord_eq_none.2 h
    · exact memReadWord_eq_some.2 ⟨Nat.lt_of_not_le h, rfl⟩
  · obtain ⟨-, rfl⟩ := fetchWord_eq_some.1 hop
    exact ⟨extractHigh_wordOfBytes _ _, extractLow_wordOfBytes _ _⟩

/-! ### The step -/

theorem step_of_halted {s : State} {r : FaultRecord} (h : s.latch = .halted r) : step s = .next s := by
  simp only [step, h]

theorem step_of_fetchInstr_error {s : State} {k : Fault} (hl : s.latch = .running) (h : s.fetchInstr = .error k) :
    step s = .next (s.takeFault k) := by
  simp only [step, hl, h, raise]

theorem step_of_runs {s : State} {i : Instr} (h : s.Runs i) : step s = exec i s := by
  simp only [step, h.1, h.2]

/-- Settles O8: the fetched word is the big-endian word of the statement. -/
theorem stepExecutesTheDecodedInstruction : Obligations.StepExecutesTheDecodedInstruction := by
  unfold Obligations.StepExecutesTheDecodedInstruction
  intro s i hl hpc hi
  exact step_of_runs ⟨hl, fetchInstr_eq_ok.2 ⟨_, fetchWord_eq_some.2 ⟨by omega, rfl⟩, hi⟩⟩

theorem takeFault_eq_of_fetchWord {s : State} {w : Option Word} (h : s.fetchWord = w) (k : Fault) :
    s.takeFault k = { s with latch := .halted ⟨k, w, s.pc⟩ } := by
  rw [State.takeFault, h]

/-- Settles O9: the two stages of the fetch, each with its fault. -/
theorem fetchAndDecodeFaultsAreTaken : Obligations.FetchAndDecodeFaultsAreTaken := by
  unfold Obligations.FetchAndDecodeFaultsAreTaken
  refine fun s hl => ⟨fun hpc => ?_, fun op r hop hr => ?_⟩
  · have hnone := fetchWord_eq_none.2 hpc
    rw [step_of_fetchInstr_error hl (fetchInstr_eq_error.2 (.inl ⟨hnone, rfl⟩)), takeFault_eq_of_fetchWord hnone]
  · rw [step_of_fetchInstr_error hl (fetchInstr_eq_error.2 (.inr ⟨op, r, hop, hr, rfl⟩)), takeFault_eq_of_fetchWord hop]

/-! ### The fault of a running machine -/

/-- The fetch, the decoder or the instruction raises the fault. -/
def State.Raises (s : State) (k : Fault) : Prop :=
  s.fetchInstr = .error k ∨ ∃ i, s.fetchInstr = .ok i ∧ faultOf i s = some k

theorem step_of_raises {s : State} {k : Fault} (hl : s.latch = .running) (h : s.Raises k) : step s = .next (s.takeFault k) := by
  rcases h with h | ⟨i, hi, hk⟩
  · exact step_of_fetchInstr_error hl h
  · exact (step_of_runs ⟨hl, hi⟩).trans (exec_eq_takeFault hk)

/-- A step leaves a halted machine alone, takes a fault, or executes an instruction that raises none. -/
theorem step_inversion {s t : State} (h : step s = .next t) :
    ((∃ r, s.latch = .halted r) ∧ t = s) ∨
    (s.latch = .running ∧ ∃ k, s.Raises k ∧ t = s.takeFault k) ∨
    (∃ i, s.Runs i ∧ Executed i s t) := by
  rcases step_cases s with ⟨r, hl, hstep⟩ | ⟨k, hl, hk, hstep⟩ | ⟨i, hl, hi, hstep⟩
  · exact .inl ⟨⟨r, hl⟩, Host.Outcome.next.inj (h.symm.trans hstep)⟩
  · exact .inr (.inl ⟨hl, k, .inl hk, Host.Outcome.next.inj (h.symm.trans hstep)⟩)
  · rw [hstep] at h
    cases hk : faultOf i s with
    | some k =>
      exact .inr (.inl ⟨hl, k, .inr ⟨i, hi, hk⟩, Host.Outcome.next.inj (h.symm.trans (exec_eq_takeFault hk))⟩)
    | none =>
      obtain ⟨u, hu⟩ := executed_of_noFault hk
      cases h.symm.trans hu.exec_eq
      exact .inr (.inr ⟨i, ⟨hl, hi⟩, hu⟩)

/-- The records a running machine's step can end with are those of the faults it raises. -/
theorem step_record_iff {s : State} (hl : s.latch = .running) (P : FaultRecord → Prop) :
    (∃ t r, step s = .next t ∧ t.faultRec = some r ∧ P r) ↔ ∃ k, s.Raises k ∧ P ⟨k, s.fetchWord, s.pc⟩ := by
  constructor
  · rintro ⟨t, r, hstep, hr, hP⟩
    rw [State.faultRec_eq_some_iff] at hr
    rcases step_inversion hstep with ⟨⟨r', hl'⟩, -⟩ | ⟨-, k, hk, rfl⟩ | ⟨i, -, hi⟩
    · rw [hl] at hl'
      cases hl'
    · cases hr
      exact ⟨k, hk, hP⟩
    · rw [hi.latch_eq, hl] at hr
      cases hr
  · rintro ⟨k, hk, hP⟩
    exact ⟨_, _, step_of_raises hl hk, rfl, hP⟩

theorem step_kind_iff {s : State} (hl : s.latch = .running) (k : Fault) :
    (∃ t r, step s = .next t ∧ t.faultRec = some r ∧ r.kind = k) ↔ s.Raises k := by
  rw [step_record_iff hl fun r => r.kind = k]
  exact ⟨fun ⟨_, hk, h⟩ => h ▸ hk, fun hk => ⟨k, hk, rfl⟩⟩

/-! ### The causes of each fault -/

theorem faultOf_stackOverflow_iff {i : Instr} {s : State} :
    faultOf i s = some .stackOverflow ↔ ∃ nnn, i = .callAddr nnn ∧ s.sp.val = 16 := by
  cases i <;> simp [faultOf]

theorem faultOf_stackUnderflow_iff {i : Instr} {s : State} :
    faultOf i s = some .stackUnderflow ↔ i = .ret ∧ s.sp.val = 0 := by
  cases i <;> simp [faultOf]

theorem faultOf_ne_illegalInstruction {i : Instr} {s : State} : faultOf i s ≠ some .illegalInstruction := by
  cases i <;> simp [faultOf]

theorem faultOf_outOfBounds_iff {i : Instr} {s : State} : faultOf i s = some .outOfBounds ↔
    (∃ x y n, i = .drwVxVyNibble x y n ∧ n ≥ 1 ∧ s.i.toNat + n - 1 ≥ 4096) ∨
    (∃ x, i = .ldBVx x ∧ s.i.toNat + 2 ≥ 4096) ∨
    (∃ x, i = .ldMemVx x ∧ s.i.toNat + x.val ≥ 4096) ∨
    (∃ x, i = .ldVxMem x ∧ s.i.toNat + x.val ≥ 4096) ∨
    (∃ x, (i = .skpVx x ∨ i = .sknpVx x) ∧ (s.reg x).toNat ≥ 16) := by
  cases i <;> simp [faultOf]

theorem fetchInstr_eq_outOfBounds {s : State} : s.fetchInstr = .error .outOfBounds ↔ 4095 ≤ s.pc.toNat := by
  rw [fetchInstr_eq_error, fetchWord_eq_none]
  simp

theorem fetchInstr_eq_illegalInstruction {s : State} :
    s.fetchInstr = .error .illegalInstruction ↔ ∃ op e, s.fetchWord = some op ∧ decode op = .error e := by
  rw [fetchInstr_eq_error]
  simp

theorem raises_stackOverflow_iff {s : State} :
    s.Raises .stackOverflow ↔ ∃ nnn, s.fetchInstr = .ok (.callAddr nnn) ∧ s.sp.val = 16 := by
  have hfetch : s.fetchInstr ≠ .error .stackOverflow := by simp [fetchInstr_eq_error]
  simp only [State.Raises, hfetch, false_or, faultOf_stackOverflow_iff]
  exact ⟨fun ⟨_, hi, nnn, h, hsp⟩ => ⟨nnn, h ▸ hi, hsp⟩, fun ⟨nnn, hi, hsp⟩ => ⟨_, hi, nnn, rfl, hsp⟩⟩

theorem raises_stackUnderflow_iff {s : State} : s.Raises .stackUnderflow ↔ s.fetchInstr = .ok .ret ∧ s.sp.val = 0 := by
  have hfetch : s.fetchInstr ≠ .error .stackUnderflow := by simp [fetchInstr_eq_error]
  simp only [State.Raises, hfetch, false_or, faultOf_stackUnderflow_iff]
  exact ⟨fun ⟨_, hi, h, hsp⟩ => ⟨h ▸ hi, hsp⟩, fun ⟨hi, hsp⟩ => ⟨_, hi, rfl, hsp⟩⟩

theorem raises_illegalInstruction_iff {s : State} :
    s.Raises .illegalInstruction ↔ ∃ op e, s.fetchWord = some op ∧ decode op = .error e := by
  simp only [State.Raises, fetchInstr_eq_illegalInstruction, faultOf_ne_illegalInstruction, and_false, exists_false, or_false]

/-- When the fetch itself faults, the fault is `OutOfBounds`. -/
theorem eq_outOfBounds_of_raises {s : State} {k : Fault} (hpc : 4095 ≤ s.pc.toNat) (h : s.Raises k) : k = .outOfBounds := by
  have hfetch := fetchInstr_eq_outOfBounds.2 hpc
  rcases h with h | ⟨i, hi, -⟩
  · exact (Except.error.inj (hfetch.symm.trans h)).symm
  · rw [hfetch] at hi
    cases hi

/-! ### The statements about faults -/

/-- Settles O5: these words are among those that the decoder rejects. -/
theorem unlistedFunctionCodesRaiseIllegalInstruction : Obligations.UnlistedFunctionCodesRaiseIllegalInstruction := by
  unfold Obligations.UnlistedFunctionCodesRaiseIllegalInstruction
  intro s op hl hop hcode
  obtain ⟨e, he⟩ : ∃ e, decode op = .error e := by
    refine (rejectedWordsAreTheIllegalOnes op).2 ?_
    rcases hcode with halu | hkey | hmisc
    · exact .inr (.inr (.inl halu))
    · exact .inr (.inr (.inr (.inr (.inl hkey))))
    · exact .inr (.inr (.inr (.inr (.inr hmisc))))
  exact (step_record_iff hl fun r => r.kind = .illegalInstruction ∧ r.opcode = some op).2
    ⟨_, raises_illegalInstruction_iff.2 ⟨op, e, hop, he⟩, rfl, hop⟩

/-- Settles O10: a step that ends halted took a fault. -/
theorem faultingStepChangesOnlyTheLatch : Obligations.FaultingStepChangesOnlyTheLatch := by
  unfold Obligations.FaultingStepChangesOnlyTheLatch
  intro s t r hl hstep hr
  rcases step_inversion hstep with ⟨⟨r', hl'⟩, -⟩ | ⟨-, k, hk, rfl⟩ | ⟨i, -, hi⟩
  · rw [hl] at hl'
    cases hl'
  · cases hr
    refine ⟨rfl, rfl, fun hpc => ⟨eq_outOfBounds_of_raises hpc hk, fetchWord_eq_none.2 hpc⟩, fun hpc => ?_⟩
    exact fetchWord_eq_some.2 ⟨hpc, rfl⟩
  · rw [hi.latch_eq, hl] at hr
    cases hr

/-- Settles O11: the causes of the three faults, each as an equivalence. -/
theorem stackAndDecodeFaultsHaveOneCause : Obligations.StackAndDecodeFaultsHaveOneCause := by
  unfold Obligations.StackAndDecodeFaultsHaveOneCause
  refine fun s hl => ⟨(step_kind_iff hl _).trans raises_stackOverflow_iff,
    (step_kind_iff hl _).trans raises_stackUnderflow_iff, fun op => ?_⟩
  rw [step_record_iff hl fun r => r.kind = .illegalInstruction ∧ r.opcode = some op]
  constructor
  · rintro ⟨_, hk, rfl, hop⟩
    obtain ⟨op', e, hop', he⟩ := raises_illegalInstruction_iff.1 hk
    cases hop.symm.trans hop'
    exact ⟨hop, e, he⟩
  · rintro ⟨hop, e, he⟩
    exact ⟨_, raises_illegalInstruction_iff.2 ⟨op, e, hop, he⟩, rfl, hop⟩

/-- Settles O12: the fetch, or one of the instructions that reach memory or a key. -/
theorem outOfBoundsHasSixCauses : Obligations.OutOfBoundsHasSixCauses := by
  unfold Obligations.OutOfBoundsHasSixCauses
  intro s hl
  rw [step_kind_iff hl, State.Raises, fetchInstr_eq_outOfBounds]
  refine or_congr_right ?_
  cases hi : s.fetchInstr with
  | error k => simp
  | ok i => simp [faultOf_outOfBounds_iff]

/-- Settles O13: both a fault and an execution answer a next state. -/
theorem everyInstructionAndStepAnswersNext : Obligations.EveryInstructionAndStepAnswersNext := by
  unfold Obligations.EveryInstructionAndStepAnswersNext
  have hexec : ∀ (i : Instr) (s : State), ∃ t, exec i s = .next t := fun i s => by
    rcases exec_cases i s with ⟨k, -, h⟩ | ⟨t, h⟩
    · exact ⟨_, h⟩
    · exact ⟨t, h.exec_eq⟩
  refine ⟨hexec, fun s => ?_⟩
  rcases step_cases s with ⟨r, -, h⟩ | ⟨k, -, -, h⟩ | ⟨i, -, -, h⟩
  · exact ⟨s, h⟩
  · exact ⟨_, h⟩
  · obtain ⟨t, ht⟩ := hexec i s
    exact ⟨t, h.trans ht⟩

/-- Every step answers the state that `stepped` names. -/
theorem step_eq_stepped (s : State) : step s = .next s.stepped := by
  obtain ⟨t, ht⟩ := everyInstructionAndStepAnswersNext.2 s
  rw [ht, State.stepped_eq ht]

/-! ### Placing a word -/

theorem placeWord_pc_lt (s : State) (op : Word) : (s.placeWord op).pc.toNat < 4095 := by
  show (if s.pc.toNat + 1 < 4096 then s.pc else BitVec.ofNat 16 Config.progBase).toNat < 4095
  split
  · omega
  · decide

/-- The bytes of a word, written at an address, are read back as the word. -/
theorem wordOfBytes_read_writeBytes {m : Memory} {a : Nat} (hm : m.wf = true) (ha : a < 4095) (op : Word) :
    wordOfBytes ((m.writeBytes a (bytesOfWord op)).read a) ((m.writeBytes a (bytesOfWord op)).read (a + 1)) = op := by
  have hread := Memory.read_writeBytes (bs := bytesOfWord op) hm fun _ => show a + 2 ≤ 4096 by omega
  rw [hread, hread, dif_pos ⟨le_rfl, show a < a + 2 by omega⟩, dif_pos ⟨Nat.le_succ a, show a + 1 < a + 2 by omega⟩]
  simp only [Nat.sub_self, Nat.add_sub_cancel_left]
  exact wordOfBytes_bytesOfWord op

theorem placeWord_fetchWord {s : State} (hm : s.mem.wf = true) (op : Word) : (s.placeWord op).fetchWord = some op :=
  fetchWord_eq_some.2 ⟨placeWord_pc_lt s op, (wordOfBytes_read_writeBytes hm (placeWord_pc_lt s op) op).symm⟩

/-- Settles O17: the placed word is what the next step fetches, and the placed state is running. -/
theorem placedWordIsTheNextInstruction : Obligations.PlacedWordIsTheNextInstruction := by
  unfold Obligations.PlacedWordIsTheNextInstruction
  intro s w i hm hi
  have hword : BitVec.ofNat 16 (w % 2 ^ 16) = BitVec.ofNat 16 w := BitVec.eq_of_toNat_eq (by simp)
  have hdecode : decode (BitVec.ofNat 16 w) = .ok i := by
    rw [decodeTableWord_eq] at hi
    cases h : decode (BitVec.ofNat 16 w) with
    | ok j => rw [h] at hi; cases hi; rfl
    | error e => rw [h] at hi; cases hi
  rw [State.withFetchWord, hword]
  exact step_of_runs ⟨rfl, fetchInstr_eq_ok.2 ⟨_, placeWord_fetchWord hm _, hdecode⟩⟩

end Sys2Proof.Machine
end

section
/-! SUPPORT. The rules of the whole machine (spec/10_state.md R11 to R26, R29, R33): which instructions change each part, the invariant,
and the report of a step (spec/60_exceptions.md R160). -/

namespace Sys2Proof.Machine

/-! ### Which instruction writes each part -/

theorem dt_mem_written_iff {i : Instr} : .dt ∈ written i ↔ ∃ x, i = .ldDtVx x := by cases i <;> simp [written]

theorem st_mem_written_iff {i : Instr} : .st ∈ written i ↔ ∃ x, i = .ldStVx x := by cases i <;> simp [written]

theorem key_not_mem_written {i : Instr} : .key ∉ written i := by cases i <;> simp [written]

theorem fb_mem_written_iff {i : Instr} : .fb ∈ written i ↔ i = .cls ∨ ∃ x y n, i = .drwVxVyNibble x y n := by
  cases i <;> simp [written]

theorem dirty_mem_written_iff {i : Instr} : .dirty ∈ written i ↔ i = .cls ∨ ∃ x y n, i = .drwVxVyNibble x y n := by
  cases i <;> simp [written]

theorem index_mem_written_iff {i : Instr} :
    .index ∈ written i ↔ (∃ nnn, i = .ldIAddr nnn) ∨ (∃ x, i = .addIVx x) ∨ (∃ x, i = .ldFVx x) := by
  cases i <;> simp [written]

theorem mem_mem_written_iff {i : Instr} : .mem ∈ written i ↔ (∃ x, i = .ldBVx x) ∨ (∃ x, i = .ldMemVx x) := by
  cases i <;> simp [written]

theorem sp_mem_written_iff {i : Instr} : .sp ∈ written i ↔ i = .ret ∨ ∃ nnn, i = .callAddr nnn := by
  cases i <;> simp [written]

theorem stack_mem_written_iff {i : Instr} : .stack ∈ written i ↔ ∃ nnn, i = .callAddr nnn := by
  cases i <;> simp [written]

theorem draws_mem_written_iff {i : Instr} : .draws ∈ written i ↔ ∃ x kk, i = .rndVxByte x kk := by
  cases i <;> simp [written]

/-- A part that a step changed, the latch aside, is one that the instruction it ran writes. -/
theorem runs_of_not_same {s t : State} {p : Part} (h : step s = .next t) (hlatch : p ≠ .latch) (hp : ¬ p.Same s t) :
    ∃ i, s.Runs i ∧ p ∈ written i := by
  rcases step_inversion h with ⟨-, rfl⟩ | ⟨-, k, -, rfl⟩ | ⟨i, hruns, hi⟩
  · exact absurd (p.same_refl t) hp
  · exact absurd (takeFault_sameBut k s p (by simpa using hlatch)) hp
  · exact ⟨i, hruns, by_contra fun hw => hp (hi.frame p hw)⟩

/-- Settles O56: each part by the instructions that write it. -/
theorem onlyTheirInstructionsChangeEachPart : Obligations.OnlyTheirInstructionsChangeEachPart := by
  unfold Obligations.OnlyTheirInstructionsChangeEachPart
  refine fun s t h => ⟨fun hp => ?_, fun hp => ?_, by_contra fun hp => ?_, fun hp => ?_, fun hp => ?_, fun ⟨a, ha⟩ => ?_,
    fun hp => ?_, fun hp => ?_⟩
  · obtain ⟨i, hi, hw⟩ := runs_of_not_same (p := .dt) h (by simp) hp
    obtain ⟨x, rfl⟩ := dt_mem_written_iff.1 hw
    exact ⟨x, hi⟩
  · obtain ⟨i, hi, hw⟩ := runs_of_not_same (p := .st) h (by simp) hp
    obtain ⟨x, rfl⟩ := st_mem_written_iff.1 hw
    exact ⟨x, hi⟩
  · obtain ⟨i, -, hw⟩ := runs_of_not_same (p := .key) h (by simp) hp
    exact key_not_mem_written hw
  · obtain ⟨i, hi, hw⟩ : ∃ i, s.Runs i ∧ .fb ∈ written i := by
      rcases hp with hp | hp
      · exact runs_of_not_same (p := .fb) h (by simp) hp
      · obtain ⟨i, hi, hw⟩ := runs_of_not_same (p := .dirty) h (by simp) hp
        exact ⟨i, hi, fb_mem_written_iff.2 (dirty_mem_written_iff.1 hw)⟩
    rcases fb_mem_written_iff.1 hw with rfl | ⟨x, y, n, rfl⟩
    · exact .inl hi
    · exact .inr ⟨x, y, n, hi⟩
  · obtain ⟨i, hi, hw⟩ := runs_of_not_same (p := .index) h (by simp) hp
    rcases index_mem_written_iff.1 hw with ⟨nnn, rfl⟩ | ⟨x, rfl⟩ | ⟨x, rfl⟩
    · exact .inl ⟨nnn, hi⟩
    · exact .inr (.inl ⟨x, hi⟩)
    · exact .inr (.inr ⟨x, hi⟩)
  · obtain ⟨i, hi, hw⟩ := runs_of_not_same (p := .mem) h (by simp) fun hm => ha (hm a)
    rcases mem_mem_written_iff.1 hw with ⟨x, rfl⟩ | ⟨x, rfl⟩
    · exact .inl ⟨x, hi⟩
    · exact .inr ⟨x, hi⟩
  · obtain ⟨i, hi, hw⟩ : ∃ i, s.Runs i ∧ .sp ∈ written i := by
      rcases hp with hp | hp
      · exact runs_of_not_same (p := .sp) h (by simp) hp
      · obtain ⟨i, hi, hw⟩ := runs_of_not_same (p := .stack) h (by simp) hp
        exact ⟨i, hi, sp_mem_written_iff.2 (.inr (stack_mem_written_iff.1 hw))⟩
    rcases sp_mem_written_iff.1 hw with rfl | ⟨nnn, rfl⟩
    · exact .inl hi
    · exact .inr ⟨nnn, hi⟩
  · obtain ⟨i, hi, hw⟩ := runs_of_not_same (p := .draws) h (by simp) hp
    obtain ⟨x, kk, rfl⟩ := draws_mem_written_iff.1 hw
    exact ⟨x, kk, hi⟩

/-- Settles O57: a fault changes no register, and an instruction only those it may write. -/
theorem registersChangeOnlyAsTabled : Obligations.RegistersChangeOnlyAsTabled := by
  unfold Obligations.RegistersChangeOnlyAsTabled
  intro s t r h hr
  rcases step_inversion h with ⟨-, rfl⟩ | ⟨-, k, -, rfl⟩ | ⟨i, hruns, hi⟩
  · exact absurd rfl hr
  · exact absurd (s.takeFault_reg k r) hr
  · exact ⟨i, hruns, by_contra fun hw => hr (hi.regs r hw)⟩

/-- What holds of the state after a step that ran an instruction and did not fault. -/
theorem executed_of_step {s t : State} {i : Instr} (hruns : s.Runs i) (h : step s = .next t) (ht : t.latch = .running) :
    Executed i s t := by
  rcases step_inversion h with ⟨⟨r, hl⟩, -⟩ | ⟨-, k, -, rfl⟩ | ⟨j, hj, hexec⟩
  · rw [hruns.1] at hl
    cases hl
  · cases ht
  · cases hruns.2.symm.trans hj.2
    exact hexec

/-- Settles O58: where each instruction leaves `PC`. -/
theorem pcAfterAStep : Obligations.PcAfterAStep := by
  unfold Obligations.PcAfterAStep
  intro s t i hruns h ht
  have hpc := (executed_of_step hruns h ht).pc
  cases i with
  | ret => exact ⟨hpc.1, hpc.2⟩
  | _ => exact hpc

/-! ### The invariant -/

/-- A step of a machine with `PC` below 4095 and return addresses up to 4096 leaves `PC` at most 0x10FE. -/
theorem Executed.pc_le {i : Instr} {s t : State} (h : Executed i s t) (hpc : s.pc.toNat < 4095)
    (hheld : ∀ j : Fin 16, j.val < s.sp.val → (s.stack[j.val]).toNat ≤ 4096) : t.pc.toNat ≤ 0x10FE := by
  have hnext : t.pc = s.pc + 2 → t.pc.toNat ≤ 0x10FE := fun h => by rw [h, BitVec.toNat_add]; simp; omega
  have hskip : t.pc = s.pc + 4 → t.pc.toNat ≤ 0x10FE := fun h => by rw [h, BitVec.toNat_add]; simp; omega
  have hafter := h.pc
  cases i with
  | jpAddr nnn | callAddr nnn =>
    have := nnn.isLt
    exact (show t.pc.toNat = nnn.toNat from hafter).trans_le (by omega)
  | jpV0Addr nnn =>
    have := nnn.isLt; have := (s.reg 0).isLt
    exact (show t.pc.toNat = (s.reg 0).toNat + nnn.toNat from hafter).trans_le (by omega)
  | ret =>
    obtain ⟨hsp, hret⟩ := hafter
    rw [hret]
    exact (hheld ⟨s.sp.val - 1, by omega⟩ (Nat.sub_lt hsp Nat.one_pos)).trans (by decide)
  | seVxByte _ _ | sneVxByte _ _ | seVxVy _ _ | sneVxVy _ _ | skpVx _ | sknpVx _ => exact hafter.elim hnext hskip
  | ldVxK x =>
    refine hafter.elim hnext fun hts => ?_
    rw [hts]; omega
  | _ => exact hnext hafter

/-- `I` stays an address of memory. -/
theorem Executed.index_lt {i : Instr} {s t : State} (h : Executed i s t) (hi : s.i.toNat < 4096) : t.i.toNat < 4096 := by
  by_cases hw : .index ∈ written i
  · rcases index_mem_written_iff.1 hw with ⟨nnn, rfl⟩ | ⟨x, rfl⟩ | ⟨x, rfl⟩
    · cases (exec_ldIAddr nnn s).symm.trans h.exec_eq
      exact (addrOperand_toNat nnn).trans_lt nnn.isLt
    · cases (exec_addIVx x s).symm.trans h.exec_eq
      exact (indexSum_toNat s.i (s.reg x)).trans_lt (Nat.mod_lt _ (by decide))
    · cases (exec_ldFVx x s).symm.trans h.exec_eq
      have := (s.reg x).isLt
      exact (glyphAddr_toNat (s.reg x)).trans_lt (by omega)
  · rwa [show t.i = s.i from h.frame .index hw]

/-- A return address held after an instruction was held before, or a call pushed it. -/
theorem Executed.held {i : Instr} {s t : State} (h : Executed i s t) (j : Fin 16) (hj : j.val < t.sp.val) :
    (j.val < s.sp.val ∧ t.stack[j.val] = s.stack[j.val]) ∨ t.stack[j.val] = s.pc + 2 := by
  by_cases hw : .sp ∈ written i
  · rcases sp_mem_written_iff.1 hw with rfl | ⟨nnn, rfl⟩
    · have hpos := sp_pos_of_noFault h.noFault
      cases (exec_ret_of_pos hpos).symm.trans h.exec_eq
      exact .inl ⟨Nat.lt_of_lt_of_le hj (Nat.sub_le _ _), rfl⟩
    · have hlt := sp_lt_of_noFault h.noFault
      cases (exec_callAddr_of_lt hlt nnn).symm.trans h.exec_eq
      rcases Nat.lt_succ_iff_lt_or_eq.1 hj with hj | hj
      · exact .inl ⟨hj, Vector.getElem_set_ne hlt j.isLt (Nat.ne_of_gt hj)⟩
      · simp [hj]
  · have hsp : t.sp = s.sp := h.frame .sp hw
    have hstack : t.stack = s.stack := h.frame .stack fun hs => hw (sp_mem_written_iff.2 (.inr (stack_mem_written_iff.1 hs)))
    exact .inl ⟨hsp ▸ hj, by rw [hstack]⟩

/-- A fault keeps the invariant: its record names `PC` and the word there. -/
theorem inv_takeFault {s : State} {k : Fault} (hs : s.Inv) (hk : s.Raises k) : (s.takeFault k).Inv := by
  obtain ⟨hmem, hindex, hpc, hheld, -⟩ := hs
  refine ⟨hmem, hindex, hpc, hheld, fun r hr => ?_⟩
  cases hr
  exact ⟨rfl, rfl, fun hnone => eq_outOfBounds_of_raises (fetchWord_eq_none.1 hnone) hk⟩

/-- An instruction that raises no fault keeps the invariant; the machine is running after it, so no record is latched. -/
theorem Executed.inv {i : Instr} {s t : State} (h : Executed i s t) (hruns : s.Runs i) (hs : s.Inv) : t.Inv := by
  obtain ⟨hmem, hindex, -, hheld, -⟩ := hs
  have hpc := pc_lt_of_fetchInstr_ok hruns.2
  refine ⟨h.mem_wf hmem, h.index_lt hindex, h.pc_le hpc fun j hj => (hheld j hj).2, fun j hj => ?_, fun r hr => ?_⟩
  · rcases h.held j hj with ⟨hj, heq⟩ | heq
    · rw [heq]
      exact hheld j hj
    · have hnext : (s.pc + 2).toNat = s.pc.toNat + 2 := by rw [BitVec.toNat_add]; simp; omega
      rw [heq, hnext]
      omega
  · rw [Option.mem_def, State.faultRec_eq_some_iff, h.latch_eq, hruns.1] at hr
    cases hr

/-- Settles O19: a step leaves the state alone, takes a fault, or executes one instruction. -/
theorem stepKeepsTheInvariant : Obligations.StepKeepsTheInvariant := by
  unfold Obligations.StepKeepsTheInvariant
  intro s t hs h
  rcases step_inversion h with ⟨-, rfl⟩ | ⟨-, k, hk, rfl⟩ | ⟨i, hruns, hi⟩
  · exact hs
  · exact inv_takeFault hs hk
  · exact hi.inv hruns hs

/-! ### The invariant under the events -/

/-- The invariant speaks of memory, `I`, `PC`, the call stack and the latch alone. -/
theorem inv_congr {s t : State} (hs : s.Inv) (hmem : t.mem = s.mem) (hi : t.i = s.i) (hpc : t.pc = s.pc) (hsp : t.sp = s.sp)
    (hstack : t.stack = s.stack) (hlatch : t.latch = s.latch) : t.Inv := by
  have hrec : t.faultRec = s.faultRec := by simp only [State.faultRec, hlatch]
  simp only [State.Inv, hmem, hi, hpc, hsp, hstack, hrec, fetchWord_congr hmem hpc]
  exact hs

theorem inv_setKey {s : State} (hs : s.Inv) (k : Nat) (p : Bool) : (s.setKey k p).Inv := by
  rcases Nat.lt_or_ge k 16 with h | h
  · rw [State.setKey_of_lt h]
    exact inv_congr hs rfl rfl rfl rfl rfl rfl
  · rwa [State.setKey_of_ge h]

/-- Settles O20: the events write none of the parts the invariant speaks of, and `init` makes canonical memory. -/
theorem hostEventsKeepTheInvariant : Obligations.HostEventsKeepTheInvariant := by
  unfold Obligations.HostEventsKeepTheInvariant
  refine ⟨fun s hs => ⟨inv_congr hs rfl rfl rfl rfl rfl rfl, inv_congr hs rfl rfl rfl rfl rfl rfl, inv_setKey hs⟩,
    fun font rom s h => ?_⟩
  obtain ⟨hlen, rfl⟩ := (init_eq_ok font).1 h
  obtain ⟨-, hindex, hpc, hheld, -⟩ := resetMeetsTheInvariant
  exact ⟨initMemory_wf font hlen, hindex, hpc, hheld, fun _ hr => nomatch hr⟩

/-- The machine of a session, if there is one, meets the invariant. -/
def Session.Inv (m : Session) : Prop := ∀ t, m = .living t → t.Inv

theorem Session.inv_onMachine {m : Session} {f : State → State} (hm : m.Inv) (hf : ∀ s : State, s.Inv → (f s).Inv) :
    (m.onMachine f).Inv := by
  intro t ht
  cases m with
  | absent d => cases ht
  | living s =>
    cases ht
    exact hf s (hm s rfl)

theorem Session.inv_apply (font : Config.FontTable) (e : Event) {m : Session} (hm : m.Inv) : (e.apply font m).Inv := by
  obtain ⟨hevent, hinit⟩ := hostEventsKeepTheInvariant
  cases e with
  | init rom =>
    intro t ht
    obtain ⟨s, hs, rfl⟩ := Session.initialised_eq_living.1 ht
    exact inv_congr (hinit font rom s hs) rfl rfl rfl rfl rfl rfl
  | step => exact Session.inv_onMachine hm fun s hs => stepKeepsTheInvariant s _ hs (step_eq_stepped s)
  | tick => exact Session.inv_onMachine hm fun s hs => (hevent s hs).1
  | setKey k p => exact Session.inv_onMachine hm fun s hs => (hevent s hs).2.2 k p
  | present => exact Session.inv_onMachine hm fun s hs => (hevent s hs).2.1

theorem Session.inv_runEvents (font : Config.FontTable) : ∀ (es : List Event) {m : Session}, m.Inv → (runEvents font es m).Inv
  | [], _, hm => hm
  | e :: es, _, hm => Session.inv_runEvents font es (Session.inv_apply font e hm)

/-- Settles O21: where there is no machine the invariant asks nothing, and every event keeps it. -/
theorem eventSequencesMeetTheInvariant : Obligations.EventSequencesMeetTheInvariant := by
  unfold Obligations.EventSequencesMeetTheInvariant
  exact fun font es d t h => Session.inv_runEvents font es (m := .absent d) (fun _ ht => nomatch ht) t h

end Sys2Proof.Machine
end

section
/-! SUPPORT. The halted machine under events, the report of a step and the random source (spec/60_exceptions.md R156, R157, R160,
spec/41_alu.md R111). -/

namespace Sys2Proof.Machine

/-! ### The report of a step -/

/-- A step that leaves a halted state reports its record. -/
theorem stepReport_of_halted {s t : State} {r : FaultRecord} (h : step s = .next t) (ht : t.latch = .halted r) :
    stepReport s = .fault r := by
  simp only [stepReport, h, reportOf, ht]
  split <;> rfl

/-- A step that ran an instruction and left a running state reports whether it wrote `dirty`. -/
theorem stepReport_of_running {s t : State} {i : Instr} (h : step s = .next t) (hi : s.fetchInstr = .ok i)
    (ht : t.latch = .running) : stepReport s = .outcome (writesDirty i s) := by
  simp only [stepReport, h, reportOf, ht, hi]

/-- Settles O14: the halted state is its own next state. -/
theorem haltedStepReportsTheRecordAgain : Obligations.HaltedStepReportsTheRecordAgain := by
  unfold Obligations.HaltedStepReportsTheRecordAgain
  exact fun s r h => ⟨step_of_halted h, stepReport_of_halted (step_of_halted h) h⟩

/-- A draw that raises no fault writes `dirty` when one of its rows is not 0. -/
theorem writesDirty_drwVxVyNibble_iff {x y : Reg} {n : Nat} {s : State} (hn : n < 16) (hr : n = 0 ∨ s.i.toNat + n - 1 < 4096) :
    writesDirty (.drwVxVyNibble x y n) s = true ↔ ∃ k < n, s.mem.read (s.i.toNat + k) ≠ 0 := by
  have hlen : (s.mem.readBytes s.i.toNat n).length ≤ 32 := by rw [Memory.readBytes_length]; omega
  simp only [writesDirty, memReadBytes_of_sprite hr, drawSprite_changed_iff hlen]
  simp

theorem writesDirty_iff {i : Instr} {s : State} (hwf : i.wellFormed = true) (hf : faultOf i s = none) :
    writesDirty i s = true ↔
      i = .cls ∨ ∃ x y n, i = .drwVxVyNibble x y n ∧ ∃ k < n, s.mem.read (s.i.toNat + k) ≠ 0 := by
  cases i with
  | drwVxVyNibble x y n =>
    rw [writesDirty_drwVxVyNibble_iff (of_decide_eq_true hwf) (sprite_of_noFault hf)]
    simp
  | _ => simp [writesDirty]

/-- Settles O52: the report by the state that the step left. -/
theorem stepReportsFaultOrBecameDirty : Obligations.StepReportsFaultOrBecameDirty := by
  unfold Obligations.StepReportsFaultOrBecameDirty
  refine fun s t hl h => ⟨fun r hr => stepReport_of_halted h hr, fun ht => ?_⟩
  rcases step_inversion h with ⟨⟨r, hl'⟩, -⟩ | ⟨-, k, -, rfl⟩ | ⟨i, hruns, hi⟩
  · rw [hl] at hl'
    cases hl'
  · cases ht
  · refine ⟨_, stepReport_of_running h hruns.2 ht, hi.dirty, ?_⟩
    rw [writesDirty_iff (wellFormed_of_fetchInstr_ok hruns.2) hi.noFault, hruns.2]
    simp

/-! ### The random source -/

/-- A step moves the random source only by running `Cxkk`, and by one. -/
theorem stepped_draws (s : State) : s.stepped.draws = s.draws ∨
    (s.stepped.draws = s.draws + 1 ∧ ∃ x kk, s.Runs (.rndVxByte x kk)) := by
  by_cases hp : Part.draws.Same s s.stepped
  · exact .inl hp
  · obtain ⟨i, hruns, hw⟩ := runs_of_not_same (step_eq_stepped s) (by simp) hp
    obtain ⟨x, kk, rfl⟩ := draws_mem_written_iff.1 hw
    have hstep := (step_of_runs hruns).trans (exec_rndVxByte x kk s)
    exact .inr ⟨by rw [State.stepped_eq hstep]; rfl, x, kk, hruns⟩

/-- Settles O35: of the events only a step moves the source, and `Cxkk` masks the byte of its one draw. -/
theorem randomByteIsMasked : Obligations.RandomByteIsMasked := by
  unfold Obligations.RandomByteIsMasked
  refine ⟨fun font e m => ?_, fun x kk s => ⟨decode_rndVxByte x kk, ?_⟩⟩
  · cases m with
    | absent d => cases e <;> simp
    | living s =>
      cases e with
      | init rom => simp
      | step =>
        refine (stepped_draws s).imp_right fun ⟨hdraws, x, kk, hruns⟩ => ⟨hdraws, s, x, kk, rfl, rfl, hruns⟩
      | tick | present => exact .inl rfl
      | setKey k p => exact .inl (s.sameBut_setKey k p .draws (by simp))
  · have hreg := State.setReg_reg_self { s with draws := s.draws + 1 } x (Config.randomByte s.draws &&& kk)
    refine ⟨_, exec_rndVxByte x kk s, hreg, fun k hk => ?_, rfl, fun r hr => ?_, rfl, s.sameBut_drawByte_setReg_advance _ x _⟩
    · rw [State.advance_reg, hreg, BitVec.getLsbD_and, hk, Bool.and_false]
    · exact State.setReg_reg_ne _ _ (List.ne_of_not_mem_cons hr)

/-! ### The halted machine under events -/

theorem Part.same_trans {p : Part} {s t u : State} (h : p.Same s t) (h' : p.Same t u) : p.Same s u := by
  cases p with
  | regs => exact fun r => (h' r).trans (h r)
  | mem => exact fun a => (h' a).trans (h a)
  | _ => exact Eq.trans h' h

theorem State.SameBut.trans {s t u : State} {ps : List Part} (h : s.SameBut t ps) (h' : t.SameBut u ps) : s.SameBut u ps :=
  fun p hp => Part.same_trans (h p hp) (h' p hp)

theorem State.SameBut.mono {s t : State} {ps qs : List Part} (h : s.SameBut t ps) (hsub : ps ⊆ qs) : s.SameBut t qs :=
  fun p hp => h p fun hps => hp (hsub hps)

/-- An event that is no `init` leaves a living machine living; a halted one keeps its latch, and changes only the timers, the keys
and `dirty`. -/
theorem apply_living (font : Config.FontTable) {e : Event} (he : ∀ rom, e ≠ .init rom) (s : State) :
    ∃ t, e.apply font (.living s) = .living t ∧
      ∀ r, s.latch = .halted r → t.latch = .halted r ∧ s.SameBut t [.dt, .st, .key, .dirty] := by
  cases e with
  | init rom => exact absurd rfl (he rom)
  | step =>
    refine ⟨_, rfl, fun r hr => ?_⟩
    rw [State.stepped_eq (step_of_halted hr)]
    exact ⟨hr, fun p _ => p.same_refl s⟩
  | tick => exact ⟨_, rfl, fun r hr => ⟨hr, s.sameBut_tick.mono (by simp)⟩⟩
  | setKey k p =>
    have hframe := s.sameBut_setKey k p
    exact ⟨_, rfl, fun r hr => ⟨(hframe .latch (by simp)).trans hr, hframe.mono (by simp)⟩⟩
  | present => exact ⟨_, rfl, fun r hr => ⟨hr, s.sameBut_present.mono (by simp)⟩⟩

/-- Settles O15: by induction on the events, each of which keeps the latch. -/
theorem haltIsPermanentUntilInit : Obligations.HaltIsPermanentUntilInit := by
  unfold Obligations.HaltIsPermanentUntilInit
  intro font es
  induction es with
  | nil => exact fun s r _ hl => ⟨s, rfl, hl, fun p _ => p.same_refl s⟩
  | cons e es ih =>
    intro s r hes hl
    rw [List.forall_mem_cons] at hes
    obtain ⟨t, happly, hhalted⟩ := apply_living font hes.1 s
    obtain ⟨hlt, hframe⟩ := hhalted r hl
    obtain ⟨u, hrun, hlu, hframe'⟩ := ih t r hes.2 hlt
    exact ⟨u, by rw [runEvents_cons, happly, hrun], hlu, hframe.trans hframe'⟩

/-- A run that ends running began running. -/
theorem halted_eq_false_of_runEvents {font : Config.FontTable} {es : List Event} {s t : State}
    (hes : ∀ e ∈ es, ∀ rom, e ≠ .init rom) (hrun : runEvents font es (.living s) = .living t) (ht : t.halted = false) :
    s.halted = false := by
  rw [State.halted_eq_false_iff] at ht ⊢
  cases hl : s.latch with
  | running => rfl
  | halted r =>
    obtain ⟨u, hu, hlu, -⟩ := haltIsPermanentUntilInit font es s r hes hl
    cases hrun.symm.trans hu
    rw [ht] at hlu
    cases hlu

/-- Settles O16: by induction on the events; a halt on the way would still be there at the end. -/
theorem safeRunsAreThoseThatEndRunning : Obligations.SafeRunsAreThoseThatEndRunning := by
  unfold Obligations.SafeRunsAreThoseThatEndRunning
  intro font es
  induction es with
  | nil => exact fun s _ => ⟨fun h => ⟨s, rfl, h⟩, fun ⟨t, hrun, ht⟩ => by cases hrun; exact ht⟩
  | cons e es ih =>
    intro s hes
    have hes' := List.forall_mem_cons.1 hes
    obtain ⟨t, happly, -⟩ := apply_living font hes'.1 s
    have hrun_eq : runEvents font (e :: es) (.living s) = runEvents font es (.living t) := by rw [runEvents_cons, happly]
    constructor
    · rintro ⟨-, t', happly', hsafe⟩
      cases happly.symm.trans happly'
      rw [hrun_eq]
      exact (ih t hes'.2).1 hsafe
    · rintro ⟨u, hrun, hu⟩
      refine ⟨halted_eq_false_of_runEvents hes hrun hu, t, happly, (ih t hes'.2).2 ⟨u, ?_, hu⟩⟩
      rw [← hrun_eq, hrun]

end Sys2Proof.Machine
end

section
/-! SUPPORT. What no program can observe (spec/10_state.md R17, R29): `ST`, `dirty` and the stack above the held entries. A step of a
machine with other values there does the same to every other part, so one case analysis serves both statements. -/

namespace Sys2Proof.Machine

/-- Values for the parts that no program observes. -/
structure Unobserved where
  st : Byte
  dirty : Bool
  stack : Vector Word 16

/-- The state with other values in those parts. -/
def State.withUnobserved (s : State) (u : Unobserved) : State :=
  { s with st := u.st, dirty := u.dirty, stack := u.stack }

/-- The stack shows the held entries of the state. -/
def State.Holds (s : State) (stk : Vector Word 16) : Prop := ∀ j : Fin 16, j.val < s.sp.val → stk[j.val] = s.stack[j.val]

/-- From the values `u` beside `s` a step came to the values `u'` beside `t`: the held entries are those of `t`, and a part that was
as in `s` is as in `t`. -/
structure Follows (s : State) (u : Unobserved) (t : State) (u' : Unobserved) : Prop where
  holds : t.Holds u'.stack
  st : u.st = s.st → u'.st = t.st
  dirty : u.dirty = s.dirty → u'.dirty = t.dirty
  stack : u.stack = s.stack → u'.stack = t.stack

/-- A step that leaves the stack and its count, `ST` and `dirty` alone. -/
theorem Follows.of_frame {s t : State} {u : Unobserved} (hu : s.Holds u.stack) (hsp : t.sp = s.sp := by rfl)
    (hstack : t.stack = s.stack := by rfl) (hst : t.st = s.st := by rfl) (hdirty : t.dirty = s.dirty := by rfl) :
    Follows s u t u where
  holds := fun j hj => by rw [hstack]; exact hu j (hsp ▸ hj)
  st := fun h => h.trans hst.symm
  dirty := fun h => h.trans hdirty.symm
  stack := fun h => h.trans hstack.symm

/-- The registers after several loads depend on the registers before them alone. -/
theorem setRegs_v_congr {s s' : State} (h : s'.v = s.v) (bs : List Byte) (k : Nat) : (s'.setRegs k bs).v = (s.setRegs k bs).v := by
  refine State.v_ext fun r => ?_
  rw [setRegs_reg, setRegs_reg]
  simp only [State.reg, h]

theorem setRegs_withUnobserved (s : State) (u : Unobserved) (bs : List Byte) (k : Nat) :
    (s.withUnobserved u).setRegs k bs = (s.setRegs k bs).withUnobserved u := by
  rw [setRegs_eq bs (s.withUnobserved u), setRegs_v_congr (s := s) (s' := s.withUnobserved u) rfl, setRegs_eq bs s]
  rfl

/-- An instruction that raises no fault does the same beside other values of the unobserved parts. -/
theorem Executed.exec_withUnobserved {i : Instr} {s t : State} (h : Executed i s t) {u : Unobserved} (hu : s.Holds u.stack) :
    ∃ u', exec i (s.withUnobserved u) = .next (t.withUnobserved u') ∧ Follows s u t u' := by
  have hf := h.noFault
  have hexec := h.exec_eq
  cases i with
  | cls =>
    obtain rfl := Host.Outcome.next.inj hexec
    exact ⟨{ u with dirty := true }, rfl, hu, id, fun _ => rfl, id⟩
  | ldStVx x =>
    obtain rfl := Host.Outcome.next.inj hexec
    exact ⟨{ u with st := s.reg x }, rfl, hu, fun _ => rfl, id, id⟩
  | ret =>
    have hpos := sp_pos_of_noFault hf
    cases (exec_ret_of_pos hpos).symm.trans hexec
    have hnewest : (s.withUnobserved u).newestEntry = s.newestEntry := hu ⟨s.sp.val - 1, by omega⟩ (Nat.sub_lt hpos Nat.one_pos)
    refine ⟨u, (exec_ret_of_pos (s := s.withUnobserved u) hpos).trans ?_, ?_, id, id, id⟩
    · rw [hnewest]
      rfl
    · exact fun j hj => hu j (Nat.lt_of_lt_of_le hj (Nat.sub_le _ _))
  | callAddr nnn =>
    have hlt := sp_lt_of_noFault hf
    cases (exec_callAddr_of_lt hlt nnn).symm.trans hexec
    refine ⟨{ u with stack := u.stack.set s.sp.val (s.pc + 2) }, exec_callAddr_of_lt (s := s.withUnobserved u) hlt nnn,
      fun j hj => ?_, id, id, fun hstack => ?_⟩
    · rcases Nat.lt_succ_iff_lt_or_eq.1 hj with hj | hj
      · simp only [Vector.getElem_set_ne hlt j.isLt (Nat.ne_of_gt hj)]
        exact hu j hj
      · simp only [hj, Vector.getElem_set_self]
    · simp only [hstack]
  | drwVxVyNibble x y n =>
    have hr := sprite_of_noFault hf
    cases (exec_drwVxVyNibble_in_range hr x y).symm.trans hexec
    exact ⟨{ u with dirty := u.dirty || _ }, exec_drwVxVyNibble_in_range (s := s.withUnobserved u) hr x y, hu, id,
      fun hdirty => congrArg (· || _) hdirty, id⟩
  | skpVx x =>
    have hlt : (s.reg x).toNat < 16 := by simpa [faultOf] using hf
    cases (exec_skpVx_of_lt hlt).symm.trans hexec
    exact ⟨u, exec_skpVx_of_lt (s := s.withUnobserved u) hlt, .of_frame hu⟩
  | sknpVx x =>
    have hlt : (s.reg x).toNat < 16 := by simpa [faultOf] using hf
    cases (exec_sknpVx_of_lt hlt).symm.trans hexec
    exact ⟨u, exec_sknpVx_of_lt (s := s.withUnobserved u) hlt, .of_frame hu⟩
  | ldVxK x =>
    cases hk : s.lowestKey with
    | none =>
      cases (exec_ldVxK_of_lowestKey_none hk x).symm.trans hexec
      exact ⟨u, exec_ldVxK_of_lowestKey_none (s := s.withUnobserved u) hk x, .of_frame hu⟩
    | some k =>
      cases (exec_ldVxK_of_lowestKey_some hk x).symm.trans hexec
      exact ⟨u, exec_ldVxK_of_lowestKey_some (s := s.withUnobserved u) hk x, .of_frame hu⟩
  | ldBVx x =>
    have hlt : s.i.toNat < 4094 := by simpa [faultOf] using hf
    have hr : s.i.toNat + (decimalDigits (s.reg x)).length ≤ 4096 := by rw [decimalDigits_length]; omega
    cases (storeAtI_in_range hr).symm.trans hexec
    exact ⟨u, storeAtI_in_range (s := s.withUnobserved u) hr, .of_frame hu⟩
  | ldMemVx x =>
    have hlt : s.i.toNat + x.val < 4096 := by simpa [faultOf] using hf
    have hr : s.i.toNat + (s.regBytes (x.val + 1)).length ≤ 4096 := by rw [regBytes_succ_length]; omega
    cases (storeAtI_in_range hr).symm.trans hexec
    exact ⟨u, storeAtI_in_range (s := s.withUnobserved u) hr, .of_frame hu⟩
  | ldVxMem x =>
    have hlt : s.i.toNat + x.val < 4096 := by simpa [faultOf] using hf
    cases (exec_ldVxMem_in_range hlt).symm.trans hexec
    refine ⟨u, (exec_ldVxMem_in_range (s := s.withUnobserved u) hlt).trans ?_, ?_⟩
    · rw [setRegs_withUnobserved]
      rfl
    · rw [setRegs_eq]
      exact .of_frame hu
  | _ =>
    obtain rfl := Host.Outcome.next.inj hexec
    exact ⟨u, rfl, .of_frame hu⟩

theorem faultOf_withUnobserved (i : Instr) (s : State) (u : Unobserved) : faultOf i (s.withUnobserved u) = faultOf i s := by
  cases i <;> rfl

theorem fetchInstr_withUnobserved (s : State) (u : Unobserved) : (s.withUnobserved u).fetchInstr = s.fetchInstr :=
  fetchInstr_congr rfl rfl

/-- A step does the same beside other values of the unobserved parts. -/
theorem step_withUnobserved {s t : State} (h : step s = .next t) {u : Unobserved} (hu : s.Holds u.stack) :
    ∃ u', step (s.withUnobserved u) = .next (t.withUnobserved u') ∧ Follows s u t u' := by
  rcases step_inversion h with ⟨⟨r, hl⟩, rfl⟩ | ⟨hl, k, hk, rfl⟩ | ⟨i, hruns, hi⟩
  · exact ⟨u, step_of_halted hl, .of_frame hu⟩
  · have hk' : (s.withUnobserved u).Raises k := by
      simpa only [State.Raises, fetchInstr_withUnobserved, faultOf_withUnobserved] using hk
    exact ⟨u, step_of_raises hl hk', .of_frame hu⟩
  · obtain ⟨u', hexec, hfollows⟩ := hi.exec_withUnobserved hu
    have hruns' : (s.withUnobserved u).Runs i := ⟨hruns.1, (fetchInstr_withUnobserved s u).trans hruns.2⟩
    exact ⟨u', (step_of_runs hruns').trans hexec, hfollows⟩

/-- The frame of other values in the unobserved parts. -/
theorem State.sameBut_withUnobserved (s : State) {u : Unobserved} {ps : List Part} (hst : .st ∉ ps → u.st = s.st)
    (hdirty : .dirty ∉ ps → u.dirty = s.dirty) (hstack : .stack ∉ ps → u.stack = s.stack) : s.SameBut (s.withUnobserved u) ps := by
  intro p hp
  cases p with
  | st => exact hst hp
  | dirty => exact hdirty hp
  | stack => exact hstack hp
  | regs | mem => exact fun _ => rfl
  | _ => rfl

/-- Settles O60: the other stack shows the held entries, and nothing reads an entry above them. -/
theorem staleStackEntriesAreUnobservable : Obligations.StaleStackEntriesAreUnobservable := by
  unfold Obligations.StaleStackEntriesAreUnobservable
  intro s t stk hstk h
  obtain ⟨u', hstep, hfollows⟩ := step_withUnobserved h (u := ⟨s.st, s.dirty, stk⟩) hstk
  exact ⟨_, hstep, t.sameBut_withUnobserved (fun _ => hfollows.st rfl) (fun _ => hfollows.dirty rfl) (by simp), hfollows.holds⟩

/-- Settles O59: no instruction reads `ST`, and `dirty` is read only to be set. -/
theorem soundTimerAndDirtyAreUnobservable : Obligations.SoundTimerAndDirtyAreUnobservable := by
  unfold Obligations.SoundTimerAndDirtyAreUnobservable
  intro s t b d h
  obtain ⟨u', hstep, hfollows⟩ := step_withUnobserved h (u := ⟨b, d, s.stack⟩) fun _ _ => rfl
  exact ⟨_, hstep, t.sameBut_withUnobserved (by simp) (by simp) fun _ => hfollows.stack rfl⟩

end Sys2Proof.Machine
end
